-- ==== Sys2Proof/Word.lean ====
section
/-! DEFINITION. Bytes, 32-bit words and byte strings of a fixed length (00_scope.md rules R8, R9). -/

namespace Sys2Proof

/-- A byte: 8 bits, a value 0 to 255 (R8). -/
abbrev Byte := BitVec 8

/-- A 32-bit word of the hash functions: `+` wraps modulo 2^32 (R9). -/
abbrev Word32 := BitVec 32

/-- A byte string of exactly `n` bytes: the data registers (R20) and the fixed operands
`fix(n)` (R72). The length is carried by the value, so no register can hold another width. -/
abbrev Bytes (n : Nat) := {b : List Byte // b.length = n}

/-- `0x00^n` as a fixed-length byte string. -/
def Bytes.zero (n : Nat) : Bytes n := ⟨List.replicate n 0, List.length_replicate⟩

end Sys2Proof
end

