-- ==== Sys2Proof/Machine/Bytes.lean ====
section
/-! DEFINITION. Byte-string operations and the big-endian conversions every other file uses
(00_scope.md rules R8, R9; 20_memory.md rules R52, R53). -/

namespace Sys2Proof

/-- `be32` of the four bytes in order, most significant first (R9). -/
def be32 (b0 b1 b2 b3 : Byte) : Nat :=
  2 ^ 24 * b0.toNat + 2 ^ 16 * b1.toNat + 2 ^ 8 * b2.toNat + b3.toNat

/-- `enc32(n)`: four bytes, most significant first (R9). R9 gives it for n < 2^32 only; above, the
high part is cut off (log entry 14). -/
def enc32 (n : Nat) : List Byte :=
  [BitVec.ofNat 8 (n / 2 ^ 24), BitVec.ofNat 8 (n / 2 ^ 16), BitVec.ofNat 8 (n / 2 ^ 8), BitVec.ofNat 8 n]

/-- `enc64(n)`: eight bytes, most significant first (R9). -/
def enc64 (n : Nat) : List Byte := enc32 (n / 2 ^ 32) ++ enc32 n

/-- `m[i:j)`: the bytes i, i+1, ..., j-1 (R8). -/
def slice (m : List Byte) (i j : Nat) : List Byte := (m.drop i).take (j - i)

/-- Bytewise exclusive-or of two byte strings of equal length (R8). -/
def xorBytes (a b : List Byte) : List Byte := List.zipWith (· ^^^ ·) a b

/-- A byte string read as one of exactly `n` bytes. Every use hands it `n` bytes already (the lemma
of Laws beside each use says so); a shorter one would be filled with zeros (log entry 12). -/
def Bytes.fit (n : Nat) (b : List Byte) : Bytes n :=
  ⟨(List.range n).map (fun i => b.getD i 0), by simp⟩

/-- The first `k` pieces of `n` bytes each, in order. -/
def chunks (n : Nat) : Nat → List Byte → List (List Byte)
  | 0, _ => []
  | k + 1, b => b.take n :: chunks n k (b.drop n)

/-- Four bytes as a hash word, the first the most significant (R53). -/
def word32 (b0 b1 b2 b3 : Byte) : Word32 := BitVec.ofNat 32 (be32 b0 b1 b2 b3)

/-- The big-endian words of a byte string, in order; a tail of fewer than four bytes is left out
(hash blocks have 64 bytes, so there is none). -/
def beWords : List Byte → List Word32
  | b0 :: b1 :: b2 :: b3 :: rest => word32 b0 b1 b2 b3 :: beWords rest
  | _ => []

/-- The four bytes of a word, most significant first. -/
def wordBytes (w : Word32) : List Byte := enc32 w.toNat

end Sys2Proof
end

