-- ==== Sys2Proof/Machine/Aes.lean ====
section
/-! DEFINITION. The block cipher: AES with a 256-bit key (41_cipher.md rules R131 to R140). -/

namespace Sys2Proof

/-! ## The field and the tables -/

/-- `xtime(a)` (R132). -/
def xtime (a : Byte) : Byte := if a.msb then (a <<< 1) ^^^ 0x1b else a <<< 1

/-- The exclusive-or of `xtime^i(a)` over the low `n` bits i of b that are set (R132). -/
def gmulBits : Nat → Byte → Byte → Byte
  | 0, _, _ => 0
  | n + 1, a, b => (if b.getLsbD 0 then a else 0) ^^^ gmulBits n (xtime a) (b >>> 1)

/-- `a • b` in GF(2^8) (R132). -/
def gmul (a b : Byte) : Byte := gmulBits 8 a b

/-- The S-box, row R0 holding `S[0xR0]` to `S[0xRf]` (R133). -/
def sboxRows : List (List Byte) :=
  [[0x63, 0x7c, 0x77, 0x7b, 0xf2, 0x6b, 0x6f, 0xc5, 0x30, 0x01, 0x67, 0x2b, 0xfe, 0xd7, 0xab, 0x76]] ++
  [[0xca, 0x82, 0xc9, 0x7d, 0xfa, 0x59, 0x47, 0xf0, 0xad, 0xd4, 0xa2, 0xaf, 0x9c, 0xa4, 0x72, 0xc0]] ++
  [[0xb7, 0xfd, 0x93, 0x26, 0x36, 0x3f, 0xf7, 0xcc, 0x34, 0xa5, 0xe5, 0xf1, 0x71, 0xd8, 0x31, 0x15]] ++
  [[0x04, 0xc7, 0x23, 0xc3, 0x18, 0x96, 0x05, 0x9a, 0x07, 0x12, 0x80, 0xe2, 0xeb, 0x27, 0xb2, 0x75]] ++
  [[0x09, 0x83, 0x2c, 0x1a, 0x1b, 0x6e, 0x5a, 0xa0, 0x52, 0x3b, 0xd6, 0xb3, 0x29, 0xe3, 0x2f, 0x84]] ++
  [[0x53, 0xd1, 0x00, 0xed, 0x20, 0xfc, 0xb1, 0x5b, 0x6a, 0xcb, 0xbe, 0x39, 0x4a, 0x4c, 0x58, 0xcf]] ++
  [[0xd0, 0xef, 0xaa, 0xfb, 0x43, 0x4d, 0x33, 0x85, 0x45, 0xf9, 0x02, 0x7f, 0x50, 0x3c, 0x9f, 0xa8]] ++
  [[0x51, 0xa3, 0x40, 0x8f, 0x92, 0x9d, 0x38, 0xf5, 0xbc, 0xb6, 0xda, 0x21, 0x10, 0xff, 0xf3, 0xd2]] ++
  [[0xcd, 0x0c, 0x13, 0xec, 0x5f, 0x97, 0x44, 0x17, 0xc4, 0xa7, 0x7e, 0x3d, 0x64, 0x5d, 0x19, 0x73]] ++
  [[0x60, 0x81, 0x4f, 0xdc, 0x22, 0x2a, 0x90, 0x88, 0x46, 0xee, 0xb8, 0x14, 0xde, 0x5e, 0x0b, 0xdb]] ++
  [[0xe0, 0x32, 0x3a, 0x0a, 0x49, 0x06, 0x24, 0x5c, 0xc2, 0xd3, 0xac, 0x62, 0x91, 0x95, 0xe4, 0x79]] ++
  [[0xe7, 0xc8, 0x37, 0x6d, 0x8d, 0xd5, 0x4e, 0xa9, 0x6c, 0x56, 0xf4, 0xea, 0x65, 0x7a, 0xae, 0x08]] ++
  [[0xba, 0x78, 0x25, 0x2e, 0x1c, 0xa6, 0xb4, 0xc6, 0xe8, 0xdd, 0x74, 0x1f, 0x4b, 0xbd, 0x8b, 0x8a]] ++
  [[0x70, 0x3e, 0xb5, 0x66, 0x48, 0x03, 0xf6, 0x0e, 0x61, 0x35, 0x57, 0xb9, 0x86, 0xc1, 0x1d, 0x9e]] ++
  [[0xe1, 0xf8, 0x98, 0x11, 0x69, 0xd9, 0x8e, 0x94, 0x9b, 0x1e, 0x87, 0xe9, 0xce, 0x55, 0x28, 0xdf]] ++
  [[0x8c, 0xa1, 0x89, 0x0d, 0xbf, 0xe6, 0x42, 0x68, 0x41, 0x99, 0x2d, 0x0f, 0xb0, 0x54, 0xbb, 0x16]]

/-- The inverse S-box, row R0 holding `IS[0xR0]` to `IS[0xRf]` (R134). -/
def invSboxRows : List (List Byte) :=
  [[0x52, 0x09, 0x6a, 0xd5, 0x30, 0x36, 0xa5, 0x38, 0xbf, 0x40, 0xa3, 0x9e, 0x81, 0xf3, 0xd7, 0xfb]] ++
  [[0x7c, 0xe3, 0x39, 0x82, 0x9b, 0x2f, 0xff, 0x87, 0x34, 0x8e, 0x43, 0x44, 0xc4, 0xde, 0xe9, 0xcb]] ++
  [[0x54, 0x7b, 0x94, 0x32, 0xa6, 0xc2, 0x23, 0x3d, 0xee, 0x4c, 0x95, 0x0b, 0x42, 0xfa, 0xc3, 0x4e]] ++
  [[0x08, 0x2e, 0xa1, 0x66, 0x28, 0xd9, 0x24, 0xb2, 0x76, 0x5b, 0xa2, 0x49, 0x6d, 0x8b, 0xd1, 0x25]] ++
  [[0x72, 0xf8, 0xf6, 0x64, 0x86, 0x68, 0x98, 0x16, 0xd4, 0xa4, 0x5c, 0xcc, 0x5d, 0x65, 0xb6, 0x92]] ++
  [[0x6c, 0x70, 0x48, 0x50, 0xfd, 0xed, 0xb9, 0xda, 0x5e, 0x15, 0x46, 0x57, 0xa7, 0x8d, 0x9d, 0x84]] ++
  [[0x90, 0xd8, 0xab, 0x00, 0x8c, 0xbc, 0xd3, 0x0a, 0xf7, 0xe4, 0x58, 0x05, 0xb8, 0xb3, 0x45, 0x06]] ++
  [[0xd0, 0x2c, 0x1e, 0x8f, 0xca, 0x3f, 0x0f, 0x02, 0xc1, 0xaf, 0xbd, 0x03, 0x01, 0x13, 0x8a, 0x6b]] ++
  [[0x3a, 0x91, 0x11, 0x41, 0x4f, 0x67, 0xdc, 0xea, 0x97, 0xf2, 0xcf, 0xce, 0xf0, 0xb4, 0xe6, 0x73]] ++
  [[0x96, 0xac, 0x74, 0x22, 0xe7, 0xad, 0x35, 0x85, 0xe2, 0xf9, 0x37, 0xe8, 0x1c, 0x75, 0xdf, 0x6e]] ++
  [[0x47, 0xf1, 0x1a, 0x71, 0x1d, 0x29, 0xc5, 0x89, 0x6f, 0xb7, 0x62, 0x0e, 0xaa, 0x18, 0xbe, 0x1b]] ++
  [[0xfc, 0x56, 0x3e, 0x4b, 0xc6, 0xd2, 0x79, 0x20, 0x9a, 0xdb, 0xc0, 0xfe, 0x78, 0xcd, 0x5a, 0xf4]] ++
  [[0x1f, 0xdd, 0xa8, 0x33, 0x88, 0x07, 0xc7, 0x31, 0xb1, 0x12, 0x10, 0x59, 0x27, 0x80, 0xec, 0x5f]] ++
  [[0x60, 0x51, 0x7f, 0xa9, 0x19, 0xb5, 0x4a, 0x0d, 0x2d, 0xe5, 0x7a, 0x9f, 0x93, 0xc9, 0x9c, 0xef]] ++
  [[0xa0, 0xe0, 0x3b, 0x4d, 0xae, 0x2a, 0xf5, 0xb0, 0xc8, 0xeb, 0xbb, 0x3c, 0x83, 0x53, 0x99, 0x61]] ++
  [[0x17, 0x2b, 0x04, 0x7e, 0xba, 0x77, 0xd6, 0x26, 0xe1, 0x69, 0x14, 0x63, 0x55, 0x21, 0x0c, 0x7d]]

/-- A table entry: the high digit of the byte names the row, the low digit the column. -/
def tableAt (rows : List (List Byte)) (a : Byte) : Byte :=
  (rows.getD (a.toNat / 16) []).getD (a.toNat % 16) 0

/-- `S[a]` (R133). -/
def sbox (a : Byte) : Byte := tableAt sboxRows a
/-- `IS[a]` (R134). -/
def invSbox (a : Byte) : Byte := tableAt invSboxRows a

/-! ## The state -/

/-- A column of the state, rows 0 to 3 (R136); also a 4-byte word of the key expansion (R135). -/
structure Col where
  r0 : Byte
  r1 : Byte
  r2 : Byte
  r3 : Byte
  deriving DecidableEq, Repr

/-- The 4×4 state, columns 0 to 3: `s[r][c] = B[r + 4c]` (R136). -/
structure AesState where
  c0 : Col
  c1 : Col
  c2 : Col
  c3 : Col
  deriving DecidableEq, Repr

/-- Applies a byte function to each byte of a column. -/
def Col.map (f : Byte → Byte) (c : Col) : Col := ⟨f c.r0, f c.r1, f c.r2, f c.r3⟩

/-- Exclusive-or of two columns. -/
def Col.xor (x y : Col) : Col := ⟨x.r0 ^^^ y.r0, x.r1 ^^^ y.r1, x.r2 ^^^ y.r2, x.r3 ^^^ y.r3⟩

/-- Applies a column function to each column. -/
def AesState.mapCols (f : Col → Col) (s : AesState) : AesState := ⟨f s.c0, f s.c1, f s.c2, f s.c3⟩

/-- A block as a state, column by column (R136). -/
def AesState.ofBlock (b : Bytes 16) : AesState :=
  let at_ := fun i => b.val.getD i 0
  ⟨⟨at_ 0, at_ 1, at_ 2, at_ 3⟩, ⟨at_ 4, at_ 5, at_ 6, at_ 7⟩,
   ⟨at_ 8, at_ 9, at_ 10, at_ 11⟩, ⟨at_ 12, at_ 13, at_ 14, at_ 15⟩⟩

/-- A state as a block, read out the same way (R136). -/
def AesState.toBlock (s : AesState) : Bytes 16 :=
  ⟨[s.c0.r0, s.c0.r1, s.c0.r2, s.c0.r3, s.c1.r0, s.c1.r1, s.c1.r2, s.c1.r3,
    s.c2.r0, s.c2.r1, s.c2.r2, s.c2.r3, s.c3.r0, s.c3.r1, s.c3.r2, s.c3.r3], rfl⟩

/-! ## Key expansion -/

/-- `Rcon[j] = xtime^(j-1)(0x01)` for j = 1 to 7 (R135). -/
def rcon (j : Nat) : Byte := [0x00, 0x01, 0x02, 0x04, 0x08, 0x10, 0x20, 0x40].getD j 0

/-- `RotWord` (R135). -/
def rotWord (w : Col) : Col := ⟨w.r1, w.r2, w.r3, w.r0⟩

/-- The word i of the expansion minus `w[i-8]`: from `t = w[i-1]` (R135). -/
def keyStep (i : Nat) (t : Col) : Col :=
  if i % 8 = 0 then ((rotWord t).map sbox).xor ⟨rcon (i / 8), 0, 0, 0⟩
  else if i % 8 = 4 then t.map sbox
  else t

/-- The zero column, never read: what a missing word would be. -/
def Col.zero : Col := ⟨0, 0, 0, 0⟩

/-- `n` more words from word `i` on, held newest first: `w[i-1]` and `w[i-8]` stand at the places 0
and 7 (R135). -/
def expandWords : Nat → Nat → List Col → List Col
  | 0, _, w => w
  | n + 1, i, w =>
    expandWords n (i + 1) ((w.getD 7 Col.zero).xor (keyStep i (w.getD 0 Col.zero)) :: w)

/-- The words `w[0..7]` of a key: its bytes, four at a time (R135). -/
def keyCols : List Byte → List Col
  | b0 :: b1 :: b2 :: b3 :: rest => ⟨b0, b1, b2, b3⟩ :: keyCols rest
  | _ => []

/-- `w[0..59]` (R135). -/
def keyWords (key : Bytes 32) : List Col := (expandWords 52 8 (keyCols key.val).reverse).reverse

/-- Round key r, the words `w[4r]` to `w[4r+3]` as the columns of a state (R135, R136). -/
def roundKey (w : List Col) (r : Nat) : AesState :=
  ⟨w.getD (4 * r) Col.zero, w.getD (4 * r + 1) Col.zero, w.getD (4 * r + 2) Col.zero,
   w.getD (4 * r + 3) Col.zero⟩

/-! ## Round transformations -/

/-- `AddRoundKey`, given the round key (R136). -/
def addRoundKey (s k : AesState) : AesState :=
  ⟨s.c0.xor k.c0, s.c1.xor k.c1, s.c2.xor k.c2, s.c3.xor k.c3⟩

/-- `SubBytes` (R137). -/
def subBytes (s : AesState) : AesState := s.mapCols (Col.map sbox)
/-- `InvSubBytes` (R139). -/
def invSubBytes (s : AesState) : AesState := s.mapCols (Col.map invSbox)

/-- `ShiftRows`: `s'[r][c] = s[r][(c + r) mod 4]` (R137). -/
def shiftRows (s : AesState) : AesState :=
  ⟨⟨s.c0.r0, s.c1.r1, s.c2.r2, s.c3.r3⟩, ⟨s.c1.r0, s.c2.r1, s.c3.r2, s.c0.r3⟩,
   ⟨s.c2.r0, s.c3.r1, s.c0.r2, s.c1.r3⟩, ⟨s.c3.r0, s.c0.r1, s.c1.r2, s.c2.r3⟩⟩

/-- `InvShiftRows`: `s'[r][(c + r) mod 4] = s[r][c]` (R139). -/
def invShiftRows (s : AesState) : AesState :=
  ⟨⟨s.c0.r0, s.c3.r1, s.c2.r2, s.c1.r3⟩, ⟨s.c1.r0, s.c0.r1, s.c3.r2, s.c2.r3⟩,
   ⟨s.c2.r0, s.c1.r1, s.c0.r2, s.c3.r3⟩, ⟨s.c3.r0, s.c2.r1, s.c1.r2, s.c0.r3⟩⟩

/-- `MixColumns` on one column (R137). -/
def mixCol (a : Col) : Col :=
  ⟨gmul a.r0 2 ^^^ gmul a.r1 3 ^^^ a.r2 ^^^ a.r3,
   a.r0 ^^^ gmul a.r1 2 ^^^ gmul a.r2 3 ^^^ a.r3,
   a.r0 ^^^ a.r1 ^^^ gmul a.r2 2 ^^^ gmul a.r3 3,
   gmul a.r0 3 ^^^ a.r1 ^^^ a.r2 ^^^ gmul a.r3 2⟩

/-- `InvMixColumns` on one column (R139). -/
def invMixCol (a : Col) : Col :=
  ⟨gmul a.r0 0x0e ^^^ gmul a.r1 0x0b ^^^ gmul a.r2 0x0d ^^^ gmul a.r3 0x09,
   gmul a.r0 0x09 ^^^ gmul a.r1 0x0e ^^^ gmul a.r2 0x0b ^^^ gmul a.r3 0x0d,
   gmul a.r0 0x0d ^^^ gmul a.r1 0x09 ^^^ gmul a.r2 0x0e ^^^ gmul a.r3 0x0b,
   gmul a.r0 0x0b ^^^ gmul a.r1 0x0d ^^^ gmul a.r2 0x09 ^^^ gmul a.r3 0x0e⟩

/-- `MixColumns` (R137). -/
def mixColumns (s : AesState) : AesState := s.mapCols mixCol
/-- `InvMixColumns` (R139). -/
def invMixColumns (s : AesState) : AesState := s.mapCols invMixCol

/-! ## The cipher -/

/-- A middle round of the cipher with its round key (R138). -/
def encRound (s k : AesState) : AesState := addRoundKey (mixColumns (shiftRows (subBytes s))) k

/-- A middle round of the inverse cipher with its round key (R140). -/
def decRound (s k : AesState) : AesState := invMixColumns (addRoundKey (invSubBytes (invShiftRows s)) k)

/-- The round keys 1 to 13, in order. -/
def middleKeys (w : List Col) : List AesState := (List.range 13).map (fun i => roundKey w (i + 1))

/-- `BlockEnc(K, B)` (R138). -/
def blockEnc (key : Bytes 32) (blk : Bytes 16) : Bytes 16 :=
  let w := keyWords key
  let s := addRoundKey (AesState.ofBlock blk) (roundKey w 0)
  let s := (middleKeys w).foldl encRound s
  (addRoundKey (shiftRows (subBytes s)) (roundKey w 14)).toBlock

/-- `BlockDec(K, B)` (R140). -/
def blockDec (key : Bytes 32) (blk : Bytes 16) : Bytes 16 :=
  let w := keyWords key
  let s := addRoundKey (AesState.ofBlock blk) (roundKey w 14)
  let s := (middleKeys w).reverse.foldl decRound s
  (addRoundKey (invSubBytes (invShiftRows s)) (roundKey w 0)).toBlock

end Sys2Proof
end

