-- ==== Sys2Proof/Machine/Cbc.lean ====
section
/-! DEFINITION. Chaining, byte padding and the two body functions of the cipher engine (41_cipher.md
rules R141 to R148). There is no counter mode (R147). -/

namespace Sys2Proof

/-- The whole 16-byte blocks of a byte string, in order (R141). -/
def blocks16 (b : List Byte) : List (Bytes 16) :=
  (chunks 16 (b.length / 16) b).map (Bytes.fit 16)

/-- Exclusive-or of two blocks (R141). -/
def xorBlock (x y : Bytes 16) : Bytes 16 :=
  ⟨xorBytes x.val y.val, by simp [xorBytes, x.property, y.property]⟩

/-- `C_i = BlockEnc(K, P_i ⊕ C_{i-1})`, from the block before the first (R141). -/
def cbcEncBlocks (key : Bytes 32) : Bytes 16 → List (Bytes 16) → List (Bytes 16)
  | _, [] => []
  | prev, p :: ps =>
    blockEnc key (xorBlock p prev) :: cbcEncBlocks key (blockEnc key (xorBlock p prev)) ps

/-- `P_i = BlockDec(K, C_i) ⊕ C_{i-1}`, from the block before the first (R142). -/
def cbcDecBlocks (key : Bytes 32) : Bytes 16 → List (Bytes 16) → List (Bytes 16)
  | _, [] => []
  | prev, c :: cs => xorBlock (blockDec key c) prev :: cbcDecBlocks key c cs

/-- Blocks as one byte string. -/
def joinBlocks (bs : List (Bytes 16)) : List Byte := bs.flatMap Subtype.val

/-- `CbcEnc(K, iv, P)` for a whole number of blocks (R141). -/
def cbcEnc (key : Bytes 32) (iv : Bytes 16) (p : List Byte) : List Byte :=
  joinBlocks (cbcEncBlocks key iv (blocks16 p))

/-- `CbcDec(K, iv, C)` for a whole number of blocks (R142). -/
def cbcDec (key : Bytes 32) (iv : Bytes 16) (c : List Byte) : List Byte :=
  joinBlocks (cbcDecBlocks key iv (blocks16 c))

/-- `Pad(p)`: n = 16 - |p| mod 16 bytes, each of value n (R143). -/
def pad (p : List Byte) : List Byte :=
  p ++ List.replicate (16 - p.length % 16) (BitVec.ofNat 8 (16 - p.length % 16))

/-- `Unpad(s)` (R144): `none` is `Bad`. All n bytes are compared. -/
def unpad (s : List Byte) : Option (List Byte) :=
  if s.length = 0 ∨ s.length % 16 ≠ 0 then none
  else
    let n := (s.getD (s.length - 1) 0).toNat
    if n < 1 ∨ 16 < n then none
    else if (s.drop (s.length - n)).all (· == BitVec.ofNat 8 n) then some (s.take (s.length - n))
    else none

/-- `EncryptBody(key, iv, pt)`, the source's two cases (R145). -/
def encryptBody (key : Bytes 32) (iv : Bytes 16) (pt : List Byte) : List Byte :=
  if pt.length ≠ 0 then cbcEnc key iv (pad pt)
  else cbcEnc key iv (List.replicate 16 0x10)

/-- `DecryptBody(key, iv, ct)`: `none` is `Bad` (R146). -/
def decryptBody (key : Bytes 32) (iv : Bytes 16) (ct : List Byte) : Option (List Byte) :=
  if ct.length = 0 ∨ ct.length % 16 ≠ 0 then none
  else unpad (cbcDec key iv ct)

end Sys2Proof
end

