-- ==== Sys2Proof/Machine/Sha1.lean ====
section
/-! DEFINITION. The 160-bit hash of the key derivation: SHA-1 (40_kdf.md rules R101 to R104). -/

namespace Sys2Proof

/-- Padding shared by SHA-1 and SHA-256: `m ‖ 0x80 ‖ 0x00^z ‖ enc64(8n)` with z = (55 - n) mod 64
(R102). The sum 119 - n mod 64 keeps the subtraction inside the naturals. -/
def mdPad (m : List Byte) : List Byte :=
  m ++ (0x80 : Byte) :: List.replicate ((119 - m.length % 64) % 64) 0 ++ enc64 (8 * m.length)

/-- The 64-byte blocks of the padded message, in order (R102). -/
def mdBlocks (m : List Byte) : List (List Byte) :=
  chunks 64 ((mdPad m).length / 64) (mdPad m)

/-- A SHA-1 chaining value: five words (R103); also its working variables a to e. -/
structure Sha1H where
  a : Word32
  b : Word32
  c : Word32
  d : Word32
  e : Word32
  deriving DecidableEq, Repr

/-- The start value of R104. -/
def sha1Init : Sha1H := ⟨0x67452301, 0xEFCDAB89, 0x98BADCFE, 0x10325476, 0xC3D2E1F0⟩

/-- `n` more words of the schedule, held newest first: W[t-3], W[t-8], W[t-14], W[t-16] stand at the
places 2, 7, 13, 15 (R103). -/
def sha1Extend : Nat → List Word32 → List Word32
  | 0, w => w
  | n + 1, w =>
    sha1Extend n
      (((w.getD 2 0 ^^^ w.getD 7 0 ^^^ w.getD 13 0 ^^^ w.getD 15 0).rotateLeft 1) :: w)

/-- W[0..79] of a 64-byte block (R103). -/
def sha1Schedule (blk : List Byte) : List Word32 :=
  (sha1Extend 64 (beWords blk).reverse).reverse

/-- The round function f of round t (R103). -/
def sha1F (t : Nat) (b c d : Word32) : Word32 :=
  if t < 20 then (b &&& c) ||| (~~~b &&& d)
  else if t < 40 then b ^^^ c ^^^ d
  else if t < 60 then (b &&& c) ||| (b &&& d) ||| (c &&& d)
  else b ^^^ c ^^^ d

/-- The round constant k of round t (R103). -/
def sha1K (t : Nat) : Word32 :=
  if t < 20 then 0x5A827999
  else if t < 40 then 0x6ED9EBA1
  else if t < 60 then 0x8F1BBCDC
  else 0xCA62C1D6

/-- One round with its word W[t] (R103). -/
def sha1Round (h : Sha1H) (t : Nat) (w : Word32) : Sha1H :=
  { a := h.a.rotateLeft 5 + sha1F t h.b h.c h.d + h.e + sha1K t + w
    b := h.a
    c := h.b.rotateLeft 30
    d := h.c
    e := h.d }

/-- The rounds t, t+1, ... over the words given (R103). -/
def sha1Rounds (h : Sha1H) (t : Nat) : List Word32 → Sha1H
  | [] => h
  | w :: ws => sha1Rounds (sha1Round h t w) (t + 1) ws

/-- `Sha1Block(H, B)` (R103). -/
def sha1Block (h : Sha1H) (blk : List Byte) : Sha1H :=
  let r := sha1Rounds h 0 (sha1Schedule blk)
  ⟨h.a + r.a, h.b + r.b, h.c + r.c, h.d + r.d, h.e + r.e⟩

/-- The 20 bytes of a chaining value (R104). -/
def Sha1H.bytes (h : Sha1H) : List Byte :=
  wordBytes h.a ++ wordBytes h.b ++ wordBytes h.c ++ wordBytes h.d ++ wordBytes h.e

/-- `SHA1(m)`, 20 bytes (R104). -/
def sha1 (m : List Byte) : List Byte := ((mdBlocks m).foldl sha1Block sha1Init).bytes

end Sys2Proof
end

