-- ==== Sys2Proof/Machine/Kdf.lean ====
section
/-! DEFINITION. HMAC over any 64-byte-block hash, and the key derivation: PBKDF2 with HMAC-SHA-1
(40_kdf.md rules R100, R105 to R108). -/

namespace Sys2Proof

/-- K0 of HMAC: a key longer than 64 bytes is hashed first; then zeros up to 64 bytes (R105). -/
def hmacKey (H : List Byte → List Byte) (key : List Byte) : List Byte :=
  let k := if 64 < key.length then H key else key
  k ++ List.replicate (64 - k.length) 0

/-- `HMAC_H(K, m) = H(opad ‖ H(ipad ‖ m))` (R105). -/
def hmac (H : List Byte → List Byte) (key m : List Byte) : List Byte :=
  let k0 := hmacKey H key
  H (k0.map (· ^^^ 0x5c) ++ H (k0.map (· ^^^ 0x36) ++ m))

/-- `HMAC_SHA1` (R105). -/
def hmacSha1 (key m : List Byte) : List Byte := hmac sha1 key m

/-- `n` further iterations of F: U is hashed on, T collects the exclusive-or (R106). -/
def pbkdf2Iterate (password : List Byte) : Nat → List Byte → List Byte → List Byte
  | 0, _, t => t
  | n + 1, u, t =>
    pbkdf2Iterate password n (hmacSha1 password u) (xorBytes t (hmacSha1 password u))

/-- `F(P, S, c, i)` (R106): block i of the derived key after c iterations. -/
def pbkdf2Block (password salt : List Byte) (c i : Nat) : List Byte :=
  let u := hmacSha1 password (salt ++ enc32 i)
  pbkdf2Iterate password (c - 1) u u

/-- `PBKDF2_HMAC_SHA1(P, S, c, 32)`: block 1 whole, block 2 cut to 12 bytes (R106). -/
def pbkdf2 (password salt : List Byte) (c : Nat) : List Byte :=
  pbkdf2Block password salt c 1 ++ (pbkdf2Block password salt c 2).take 12

/-- `KDF_ITER` (R6). -/
@[irreducible] def kdfIter : Nat := 10000

/-- `Kdf(pw, salt)` (R100): the 32 bytes of PBKDF2 with 10000 iterations. Kept from unfolding by
itself, since it is 40000 SHA-1 evaluations and more. -/
@[irreducible] def kdf (password : List Byte) (salt : Bytes 8) : Bytes 32 :=
  Bytes.fit 32 (pbkdf2 password salt.val kdfIter)

end Sys2Proof
end

