-- ==== Sys2Proof/Machine/Sha256.lean ====
section
/-! DEFINITION. The hash of the tag: SHA-256 (42_hmac_compare.md rules R171 to R173). -/

namespace Sys2Proof

/-- A SHA-256 chaining value: eight words (R172); also its working variables a to h. -/
structure Sha256H where
  a : Word32
  b : Word32
  c : Word32
  d : Word32
  e : Word32
  f : Word32
  g : Word32
  h : Word32
  deriving DecidableEq, Repr

/-- The initial chaining value H0..H7 (R172). -/
def sha256Init : Sha256H :=
  ⟨0x6a09e667, 0xbb67ae85, 0x3c6ef372, 0xa54ff53a, 0x510e527f, 0x9b05688c, 0x1f83d9ab, 0x5be0cd19⟩

/-- The round constants K[0..63], eight per line (R172). -/
def sha256K : List Word32 :=
  [0x428a2f98, 0x71374491, 0xb5c0fbcf, 0xe9b5dba5, 0x3956c25b, 0x59f111f1, 0x923f82a4, 0xab1c5ed5] ++
  [0xd807aa98, 0x12835b01, 0x243185be, 0x550c7dc3, 0x72be5d74, 0x80deb1fe, 0x9bdc06a7, 0xc19bf174] ++
  [0xe49b69c1, 0xefbe4786, 0x0fc19dc6, 0x240ca1cc, 0x2de92c6f, 0x4a7484aa, 0x5cb0a9dc, 0x76f988da] ++
  [0x983e5152, 0xa831c66d, 0xb00327c8, 0xbf597fc7, 0xc6e00bf3, 0xd5a79147, 0x06ca6351, 0x14292967] ++
  [0x27b70a85, 0x2e1b2138, 0x4d2c6dfc, 0x53380d13, 0x650a7354, 0x766a0abb, 0x81c2c92e, 0x92722c85] ++
  [0xa2bfe8a1, 0xa81a664b, 0xc24b8b70, 0xc76c51a3, 0xd192e819, 0xd6990624, 0xf40e3585, 0x106aa070] ++
  [0x19a4c116, 0x1e376c08, 0x2748774c, 0x34b0bcb5, 0x391c0cb3, 0x4ed8aa4a, 0x5b9cca4f, 0x682e6ff3] ++
  [0x748f82ee, 0x78a5636f, 0x84c87814, 0x8cc70208, 0x90befffa, 0xa4506ceb, 0xbef9a3f7, 0xc67178f2]

/-- s0 of the schedule (R173). -/
def smallSigma0 (x : Word32) : Word32 := x.rotateRight 7 ^^^ x.rotateRight 18 ^^^ (x >>> 3)
/-- s1 of the schedule (R173). -/
def smallSigma1 (x : Word32) : Word32 := x.rotateRight 17 ^^^ x.rotateRight 19 ^^^ (x >>> 10)
/-- S0 of a round (R173). -/
def bigSigma0 (x : Word32) : Word32 := x.rotateRight 2 ^^^ x.rotateRight 13 ^^^ x.rotateRight 22
/-- S1 of a round (R173). -/
def bigSigma1 (x : Word32) : Word32 := x.rotateRight 6 ^^^ x.rotateRight 11 ^^^ x.rotateRight 25

/-- `n` more words of the schedule, held newest first: W[t-2], W[t-7], W[t-15], W[t-16] stand at the
places 1, 6, 14, 15 (R173). -/
def sha256Extend : Nat → List Word32 → List Word32
  | 0, w => w
  | n + 1, w =>
    sha256Extend n
      ((w.getD 15 0 + smallSigma0 (w.getD 14 0) + w.getD 6 0 + smallSigma1 (w.getD 1 0)) :: w)

/-- W[0..63] of a 64-byte block (R173). -/
def sha256Schedule (blk : List Byte) : List Word32 :=
  (sha256Extend 48 (beWords blk).reverse).reverse

/-- T1 of a round (R173). -/
def sha256T1 (s : Sha256H) (k w : Word32) : Word32 :=
  s.h + bigSigma1 s.e + ((s.e &&& s.f) ^^^ (~~~s.e &&& s.g)) + k + w

/-- T2 of a round (R173). -/
def sha256T2 (s : Sha256H) : Word32 :=
  bigSigma0 s.a + ((s.a &&& s.b) ^^^ (s.a &&& s.c) ^^^ (s.b &&& s.c))

/-- One round with its constant K[t] and its word W[t] (R173). -/
def sha256Round (s : Sha256H) (kw : Word32 × Word32) : Sha256H :=
  { a := sha256T1 s kw.1 kw.2 + sha256T2 s
    b := s.a
    c := s.b
    d := s.c
    e := s.d + sha256T1 s kw.1 kw.2
    f := s.e
    g := s.f
    h := s.g }

/-- One block (R173). -/
def sha256Block (s : Sha256H) (blk : List Byte) : Sha256H :=
  let r := (sha256K.zip (sha256Schedule blk)).foldl sha256Round s
  ⟨s.a + r.a, s.b + r.b, s.c + r.c, s.d + r.d, s.e + r.e, s.f + r.f, s.g + r.g, s.h + r.h⟩

/-- The 32 bytes of a chaining value (R173). -/
def Sha256H.bytes (s : Sha256H) : List Byte :=
  wordBytes s.a ++ wordBytes s.b ++ wordBytes s.c ++ wordBytes s.d ++
  wordBytes s.e ++ wordBytes s.f ++ wordBytes s.g ++ wordBytes s.h

/-- `SHA256(m)`, 32 bytes (R173). -/
def sha256 (m : List Byte) : List Byte := ((mdBlocks m).foldl sha256Block sha256Init).bytes

end Sys2Proof
end

