-- ==== Sys2Proof/Machine/Mac.lean ====
section
/-! DEFINITION. The HMAC generator and the constant-time comparator (42_hmac_compare.md rules R174
to R176). -/

namespace Sys2Proof

/-- `HMAC_SHA256(K, m)` (R174). -/
def hmacSha256 (key m : List Byte) : List Byte := hmac sha256 key m

/-- `Tag(hkey, header, ct) = HMAC_SHA256(hkey, header ‖ ct)` (R175). -/
def macTag (hkey : Bytes 32) (header ct : List Byte) : List Byte := hmacSha256 hkey.val (header ++ ct)

/-- `CtEq(a, b)` (R176): unequal lengths are unequal; else every byte is folded into the
accumulator, with no early exit. -/
def ctEq (a b : List Byte) : Bool :=
  if a.length ≠ b.length then false
  else (List.zipWith (· ^^^ ·) a b).foldl (· ||| ·) (0 : Byte) == 0

end Sys2Proof
end

