-- ==== Sys2Proof/Syntax.lean ====
section
/-! DEFINITION. The fourteen commands with their operands (30_encoding.md rules R71 to R74), one
constructor per row of spec/opcode_table.json. -/

namespace Sys2Proof

/-- A command with its operands in packet order (R74). A fixed operand carries its length in its
type, a variable operand is any byte string. -/
inductive Instr where
  /-- `00` GET_STATUS, format F0. -/
  | getStatus
  /-- `01` CLEAR, format F0. -/
  | clear
  /-- `02` GET_HDR, format F0. -/
  | getHdr
  /-- `10` ENC_BUILD_PW, format FV8816. -/
  | encBuildPw (password : List Byte) (esalt hsalt : Bytes 8) (iv : Bytes 16)
  /-- `11` ENC_BUILD_KEYS, format FKK16. -/
  | encBuildKeys (ekey hkey : Bytes 32) (iv : Bytes 16)
  /-- `12` ENCRYPT, format FV. -/
  | encrypt (plaintext : List Byte)
  /-- `13` ENCRYPT_MSG, format FVV. -/
  | encryptMsg (password plaintext : List Byte)
  /-- `20` DEC_BUILD_PW, format FVV. -/
  | decBuildPw (password message : List Byte)
  /-- `21` DEC_BUILD_KEYS, format FKKV. -/
  | decBuildKeys (ekey hkey : Bytes 32) (message : List Byte)
  /-- `22` DECRYPT, format FV. -/
  | decrypt (message : List Byte)
  /-- `23` DECRYPT_MSG, format FVV. -/
  | decryptMsg (password message : List Byte)
  /-- `30` KDF, format FV8. -/
  | kdf (password : List Byte) (salt : Bytes 8)
  /-- `31` TAG, format FKV. -/
  | tag (key : Bytes 32) (data : List Byte)
  /-- `32` CTEQ, format FVV. -/
  | cteq (a b : List Byte)
  deriving DecidableEq, Repr

/-- The commands without their operands: the rows of the opcode map (R74). -/
inductive Op where
  | getStatus | clear | getHdr
  | encBuildPw | encBuildKeys | encrypt | encryptMsg
  | decBuildPw | decBuildKeys | decrypt | decryptMsg
  | kdf | tag | cteq
  deriving DecidableEq, Repr

/-- Every row of the opcode map, in the order of R74. -/
def Op.all : List Op :=
  [.getStatus, .clear, .getHdr, .encBuildPw, .encBuildKeys, .encrypt, .encryptMsg,
   .decBuildPw, .decBuildKeys, .decrypt, .decryptMsg, .kdf, .tag, .cteq]

/-- The row a command belongs to. -/
def Instr.op : Instr → Op
  | .getStatus => .getStatus
  | .clear => .clear
  | .getHdr => .getHdr
  | .encBuildPw _ _ _ _ => .encBuildPw
  | .encBuildKeys _ _ _ => .encBuildKeys
  | .encrypt _ => .encrypt
  | .encryptMsg _ _ => .encryptMsg
  | .decBuildPw _ _ => .decBuildPw
  | .decBuildKeys _ _ _ => .decBuildKeys
  | .decrypt _ => .decrypt
  | .decryptMsg _ _ => .decryptMsg
  | .kdf _ _ => .kdf
  | .tag _ _ => .tag
  | .cteq _ _ => .cteq

/-- Operand kinds (R72). -/
inductive OperandKind where
  /-- `fix(n)`: n raw bytes. -/
  | fix (n : Nat)
  /-- `var`: a 4-byte length field, then that many bytes. -/
  | var
  deriving DecidableEq, Repr

/-- The eight packet formats (R73). -/
inductive Format where
  | f0 | fV | fVV | fV8 | fV8816 | fKK16 | fKKV | fKV
  deriving DecidableEq, Repr

end Sys2Proof
end

