-- ==== Sys2Proof/WellFormed.lean ====
section
/-! DEFINITION. Which commands a packet can carry: every variable operand fits its 32-bit length
field (30_encoding.md rules R72, R75). The lengths of fixed operands are in their types. -/

namespace Sys2Proof

/-- A variable operand whose length a 4-byte field can hold (R72, R75). -/
def fitsLengthField (b : List Byte) : Bool := decide (b.length < 2 ^ 32)

/-- A command `Encode` is an inverse of `Decode` for: R75, "every command c whose variable operands
are shorter than 2^32 bytes". -/
def WellFormed : Instr → Bool
  | .getStatus => true
  | .clear => true
  | .getHdr => true
  | .encBuildPw password _ _ _ => fitsLengthField password
  | .encBuildKeys _ _ _ => true
  | .encrypt plaintext => fitsLengthField plaintext
  | .encryptMsg password plaintext => fitsLengthField password && fitsLengthField plaintext
  | .decBuildPw password message => fitsLengthField password && fitsLengthField message
  | .decBuildKeys _ _ message => fitsLengthField message
  | .decrypt message => fitsLengthField message
  | .decryptMsg password message => fitsLengthField password && fitsLengthField message
  | .kdf password _ => fitsLengthField password
  | .tag _ data => fitsLengthField data
  | .cteq a b => fitsLengthField a && fitsLengthField b

end Sys2Proof
end

