-- ==== Sys2Proof/Decode.lean ====
section
/-! DEFINITION. The packet decoder, total on any byte string and rejecting by name (30_encoding.md
rules R71 to R76), the encoder from the same tables, and the table word the host asks about. -/

namespace Sys2Proof

/-- The opcode byte of each row (R74). -/
def Op.code : Op → Byte
  | .getStatus => 0x00
  | .clear => 0x01
  | .getHdr => 0x02
  | .encBuildPw => 0x10
  | .encBuildKeys => 0x11
  | .encrypt => 0x12
  | .encryptMsg => 0x13
  | .decBuildPw => 0x20
  | .decBuildKeys => 0x21
  | .decrypt => 0x22
  | .decryptMsg => 0x23
  | .kdf => 0x30
  | .tag => 0x31
  | .cteq => 0x32

/-- The packet format of each row (R74). -/
def Op.format : Op → Format
  | .getStatus => .f0
  | .clear => .f0
  | .getHdr => .f0
  | .encBuildPw => .fV8816
  | .encBuildKeys => .fKK16
  | .encrypt => .fV
  | .encryptMsg => .fVV
  | .decBuildPw => .fVV
  | .decBuildKeys => .fKKV
  | .decrypt => .fV
  | .decryptMsg => .fVV
  | .kdf => .fV8
  | .tag => .fKV
  | .cteq => .fVV

/-- The operand kinds of each format, in packet order (R73). -/
def Format.kinds : Format → List OperandKind
  | .f0 => []
  | .fV => [.var]
  | .fVV => [.var, .var]
  | .fV8 => [.var, .fix 8]
  | .fV8816 => [.var, .fix 8, .fix 8, .fix 16]
  | .fKK16 => [.fix 32, .fix 32, .fix 16]
  | .fKKV => [.fix 32, .fix 32, .var]
  | .fKV => [.fix 32, .var]

/-- The row whose opcode a byte is: all eight bits are matched (R74). -/
def Op.ofByte (b : Byte) : Option Op := Op.all.find? (fun o => o.code == b)

/-- Why a packet is illegal (R75, R76). All of them get the same answer, `ERR_ILLEGAL_CMD`; the
names only say which line of R75's `Decode` refused (log entry 9). -/
inductive Illegal where
  /-- `|p| = 0`. -/
  | emptyPacket
  /-- Byte 0 is not in the opcode map. -/
  | unknownOpcode (b : Byte)
  /-- A fixed operand runs past the end of the packet. -/
  | fixedCutShort
  /-- A length field runs past the end of the packet. -/
  | lengthCutShort
  /-- A length field promises more bytes than follow. -/
  | variableCutShort
  /-- Bytes are left over after the last operand. -/
  | trailingBytes
  deriving DecidableEq, Repr

/-- Takes a `fix(n)` operand off the packet (R75). -/
def takeFix (n : Nat) (p : List Byte) : Except Illegal (Bytes n × List Byte) :=
  if h : n ≤ p.length then .ok (⟨p.take n, by simp [h]⟩, p.drop n) else .error .fixedCutShort

/-- Takes a `var` operand off the packet: a big-endian length field, then that many bytes (R72, R75). -/
def takeVar : List Byte → Except Illegal (List Byte × List Byte)
  | b0 :: b1 :: b2 :: b3 :: rest =>
    if be32 b0 b1 b2 b3 ≤ rest.length then
      .ok (rest.take (be32 b0 b1 b2 b3), rest.drop (be32 b0 b1 b2 b3))
    else .error .variableCutShort
  | _ => .error .lengthCutShort

/-- The packet must end here (R75, "trailing bytes"). -/
def finishPacket (i : Instr) : List Byte → Except Illegal Instr
  | [] => .ok i
  | _ :: _ => .error .trailingBytes

/-- The operands of a row, and nothing after them (R73, R75). -/
def decodeOperands (o : Op) (p : List Byte) : Except Illegal Instr :=
  match o with
  | .getStatus => finishPacket .getStatus p
  | .clear => finishPacket .clear p
  | .getHdr => finishPacket .getHdr p
  | .encBuildPw => do
    let (password, p) ← takeVar p
    let (esalt, p) ← takeFix 8 p
    let (hsalt, p) ← takeFix 8 p
    let (iv, p) ← takeFix 16 p
    finishPacket (.encBuildPw password esalt hsalt iv) p
  | .encBuildKeys => do
    let (ekey, p) ← takeFix 32 p
    let (hkey, p) ← takeFix 32 p
    let (iv, p) ← takeFix 16 p
    finishPacket (.encBuildKeys ekey hkey iv) p
  | .encrypt => do
    let (plaintext, p) ← takeVar p
    finishPacket (.encrypt plaintext) p
  | .encryptMsg => do
    let (password, p) ← takeVar p
    let (plaintext, p) ← takeVar p
    finishPacket (.encryptMsg password plaintext) p
  | .decBuildPw => do
    let (password, p) ← takeVar p
    let (message, p) ← takeVar p
    finishPacket (.decBuildPw password message) p
  | .decBuildKeys => do
    let (ekey, p) ← takeFix 32 p
    let (hkey, p) ← takeFix 32 p
    let (message, p) ← takeVar p
    finishPacket (.decBuildKeys ekey hkey message) p
  | .decrypt => do
    let (message, p) ← takeVar p
    finishPacket (.decrypt message) p
  | .decryptMsg => do
    let (password, p) ← takeVar p
    let (message, p) ← takeVar p
    finishPacket (.decryptMsg password message) p
  | .kdf => do
    let (password, p) ← takeVar p
    let (salt, p) ← takeFix 8 p
    finishPacket (.kdf password salt) p
  | .tag => do
    let (key, p) ← takeFix 32 p
    let (data, p) ← takeVar p
    finishPacket (.tag key data) p
  | .cteq => do
    let (a, p) ← takeVar p
    let (b, p) ← takeVar p
    finishPacket (.cteq a b) p

/-- `Decode(p)` (R75). -/
def decode : List Byte → Except Illegal Instr
  | [] => .error .emptyPacket
  | opcode :: p =>
    match Op.ofByte opcode with
    | none => .error (.unknownOpcode opcode)
    | some o => decodeOperands o p

/-- A `var` operand as it stands in a packet (R72). -/
def varOperand (b : List Byte) : List Byte := enc32 b.length ++ b

/-- The operand bytes of a command, by its format (R73). -/
def encodeOperands : Instr → List Byte
  | .getStatus => []
  | .clear => []
  | .getHdr => []
  | .encBuildPw password esalt hsalt iv =>
    varOperand password ++ esalt.val ++ hsalt.val ++ iv.val
  | .encBuildKeys ekey hkey iv => ekey.val ++ hkey.val ++ iv.val
  | .encrypt plaintext => varOperand plaintext
  | .encryptMsg password plaintext => varOperand password ++ varOperand plaintext
  | .decBuildPw password message => varOperand password ++ varOperand message
  | .decBuildKeys ekey hkey message => ekey.val ++ hkey.val ++ varOperand message
  | .decrypt message => varOperand message
  | .decryptMsg password message => varOperand password ++ varOperand message
  | .kdf password salt => varOperand password ++ salt.val
  | .tag key data => key.val ++ varOperand data
  | .cteq a b => varOperand a ++ varOperand b

/-- `Encode(c)`: the opcode byte, then the operands (R71, R75). -/
def encode (i : Instr) : List Byte := i.op.code :: encodeOperands i

/-- How many bytes the operands of the given kinds take at the front of `p`, a missing byte of a
length field read as zero (R72, R75). -/
def operandBytes : List OperandKind → List Byte → Nat
  | [], _ => 0
  | .fix n :: ks, p => n + operandBytes ks (p.drop n)
  | .var :: ks, p =>
    4 + be32 (p.getD 0 0) (p.getD 1 0) (p.getD 2 0) (p.getD 3 0) +
      operandBytes ks (p.drop (4 + be32 (p.getD 0 0) (p.getD 1 0) (p.getD 2 0) (p.getD 3 0)))

/-- The first `n` bytes of a table word: byte k holds the bits 8k+7 to 8k. -/
def wordToBytes : Nat → Nat → List Byte
  | 0, _ => []
  | n + 1, w => BitVec.ofNat 8 w :: wordToBytes n (w / 256)

/-- A table word as the whole packet it stands for: its bytes, first byte first, and zero bytes
up to the length its own opcode and length fields call for (log entry 8). -/
def tablePacket (nbits w : Nat) : List Byte :=
  match wordToBytes (nbits / 8) w with
  | [] => []
  | opcode :: p =>
    match Op.ofByte opcode with
    | none => opcode :: p
    | some o => opcode :: p ++ List.replicate (operandBytes o.format.kinds p - p.length) 0

/-- What the decoder reads from a table word (the host's question). -/
def decodeTableWord (nbits w : Nat) : Option Instr :=
  match decode (tablePacket nbits w) with
  | .ok i => some i
  | .error _ => none

end Sys2Proof
end

