-- ==== Sys2Proof/Config.lean ====
section
/-! DEFINITION. What an implementation fixes (the capacities of 00_scope.md rule R7) and the free
value of the machine (the answers of the randomness port, 20_memory.md rule R63). -/

namespace Sys2Proof

/-- The open parameters of R7 with their constraints. They are "parameters of the step, not state"
(R20); the model carries them in the field `cfg` of State, which no step changes, so that every
statement about a state holds for every choice of them (log entry 5). -/
structure Config where
  /-- `MAX_PW`: most bytes a password operand may have. -/
  maxPw : Nat
  /-- `MAX_DATA`: most bytes a plaintext operand may have. -/
  maxData : Nat
  maxPw_pos : 1 ≤ maxPw
  maxPw_lt : maxPw < 2 ^ 32
  maxData_ge : 16 ≤ maxData
  maxData_lt : maxData + 82 < 2 ^ 32
  deriving DecidableEq, Repr

/-- R7's suggested defaults, 1024 and 65536. DESIGN CHOICE, unsafe (log entry 5): State.reset uses
them; the spec leaves the two numbers open. -/
def Config.suggested : Config :=
  { maxPw := 1024, maxData := 65536, maxPw_pos := by decide, maxPw_lt := by decide,
    maxData_ge := by decide, maxData_lt := by decide }

/-- One answer of the randomness port (R63): bytes, or `Fail`. An answer carries sixteen bytes, the
most a draw asks for; a draw of n bytes takes the first n of them (log entry 4). -/
inductive RngAnswer where
  | ok (b : Bytes 16)
  | fail
  deriving DecidableEq, Repr, Inhabited

/-- FREE VALUE (R63, U7): what the randomness port answers to draw number `k` when State lines up
no answer for it. It has no body, so nothing is known of it (log entry 4). -/
opaque Config.freeDraw : Nat → RngAnswer

end Sys2Proof
end

