-- ==== Sys2Proof/Machine/State.lean ====
section
/-! DEFINITION. The state of the engine (10_state.md rules R20 to R27), the three ports beside it
(20_memory.md rule R50), the reasons a step can stop, and the state after reset (rule R33). -/

namespace Sys2Proof.Machine

/-- The engine never faults: every packet in every state has one response and one next state
(R293). The type has no constructor. -/
inductive Fault where
  deriving DecidableEq, Repr

/-- The engine refuses nothing (R293). -/
inductive Refusal where
  /-- Raised by no meaning: kept for a command that had no meaning yet. Safe. -/
  | notModelled (mnemonic : String)
  deriving DecidableEq, Repr

/-- `CTX` (R22): which object the context holds. The value 3 never occurs, so it has no constructor. -/
inductive Ctx where
  | none | enc | dec
  deriving DecidableEq, Repr

/-- `MODE` (R23): the key source of the context, 0 key pair, 1 password. -/
inductive Mode where
  | keys | password
  deriving DecidableEq, Repr

/-- The status codes 0 to 10 (R251). The codes 11 to 15 are never produced (R262) and have no
constructor; `tagGen` is allocated and raised by no rule (R252). -/
inductive Status where
  | ok | tagGen | hmac | noTag | inputSize | shortInput | rng | unpad | format | sequence | illegalCmd
  deriving DecidableEq, Repr

/-- What the host does to the engine, in order of arrival (R50, R58, R280). -/
inductive HostEvent where
  /-- A command packet on `CMD`. -/
  | packet (p : List Byte)
  /-- The reset line, between commands. -/
  | reset
  /-- The reset line, while the command of packet `p` is in progress and has made `draws` draws
  (R280, U19; log entry 7). -/
  | resetDuring (p : List Byte) (draws : Nat)
  deriving DecidableEq, Repr

/-- The state: the tuple of R20, then the model's own fields for the ports and the parameters. -/
structure State where
  /-- `ESALT`, 8 bytes (R20, R21). -/
  esalt : Bytes 8
  /-- `HSALT`, 8 bytes (R20, R21). -/
  hsalt : Bytes 8
  /-- `IV`, 16 bytes (R20, R21). -/
  iv : Bytes 16
  /-- `EKEY`, 32 bytes (R20, R21). -/
  ekey : Bytes 32
  /-- `HKEY`, 32 bytes (R20, R21). -/
  hkey : Bytes 32
  /-- `CTX` (R22). -/
  ctx : Ctx
  /-- `MODE` (R23). -/
  mode : Mode
  /-- `EQ` (R24). -/
  eq : Bool
  /-- `LASTERR` (R25). -/
  lasterr : Status
  /-- The capacities (R7); no step changes them (log entry 5). -/
  cfg : Config
  /-- What the host has submitted and the engine has not taken yet (R50, R58; log entry 1). -/
  inputs : List HostEvent
  /-- The response packets sent on `RSP`, oldest first (R50, R58; log entry 3). -/
  rsp : List (List Byte)
  /-- The answers of the randomness port that stand in line (R63; log entry 4). -/
  rng : List RngAnswer
  /-- How many draws have been made (R55; log entry 4). -/
  draws : Nat
  deriving DecidableEq, Repr

/-- The state right after reset: R33 for the registers; the ports empty and the capacities at R7's
suggested defaults (log entries 1, 3, 4, 5). -/
def State.reset : State where
  esalt := Bytes.zero 8
  hsalt := Bytes.zero 8
  iv := Bytes.zero 16
  ekey := Bytes.zero 32
  hkey := Bytes.zero 32
  ctx := .none
  mode := .keys
  eq := false
  lasterr := .ok
  cfg := Config.suggested
  inputs := []
  rsp := []
  rng := []
  draws := 0

end Sys2Proof.Machine
end

