-- ==== Sys2Proof/Machine/Flags.lean ====
section
/-! DEFINITION. The status codes and the status byte (10_state.md rules R22 to R26; 60_exceptions.md
rule R251). -/

namespace Sys2Proof.Machine

/-- The number of a status code (R251). -/
def Status.code : Status → Nat
  | .ok => 0
  | .tagGen => 1
  | .hmac => 2
  | .noTag => 3
  | .inputSize => 4
  | .shortInput => 5
  | .rng => 6
  | .unpad => 7
  | .format => 8
  | .sequence => 9
  | .illegalCmd => 10

/-- The value of the `CTX` field (R22). -/
def Ctx.code : Ctx → Nat
  | .none => 0
  | .enc => 1
  | .dec => 2

/-- The value of the `MODE` bit, which is the header's mode byte (R23, R83). -/
def Mode.code : Mode → Nat
  | .keys => 0
  | .password => 1

/-- The value of the `EQ` bit (R24). -/
def eqCode (b : Bool) : Nat := if b then 1 else 0

/-- `STATUS = EQ·128 + MODE·64 + CTX·16 + LASTERR` (R26). -/
def State.statusByte (s : State) : Byte :=
  BitVec.ofNat 8 (eqCode s.eq * 128 + s.mode.code * 64 + s.ctx.code * 16 + s.lasterr.code)

end Sys2Proof.Machine
end

