-- ==== Sys2Proof/Machine/Operands.lean ====
section
/-! DEFINITION. The capacity of each kind of variable operand (00_scope.md rule R7; 44_commands.md
rule R210): the first check of every command that has one. -/

namespace Sys2Proof.Machine

/-- `MAX_MSG = MAX_DATA + 82` (R7). -/
def maxMsg (c : Config) : Nat := c.maxData + 82

/-- A password operand beyond `MAX_PW` (R210). -/
abbrev State.passwordTooLong (s : State) (password : List Byte) : Prop := s.cfg.maxPw < password.length

/-- A plaintext operand beyond `MAX_DATA` (R210). -/
abbrev State.plaintextTooLong (s : State) (plaintext : List Byte) : Prop :=
  s.cfg.maxData < plaintext.length

/-- A message operand, `TAG` data or a `CTEQ` operand beyond `MAX_MSG` (R7, R210). -/
abbrev State.messageTooLong (s : State) (message : List Byte) : Prop := maxMsg s.cfg < message.length

end Sys2Proof.Machine
end

