-- ==== Sys2Proof/Machine/Ops.lean ====
section
/-! DEFINITION. The operations the commands share: emptying and filling the context, the end of a
command (result or error), the randomness port, reset, and the host's inputs. -/

namespace Sys2Proof.Machine

/-! ## The context -/

/-- `ZeroCtx()` (R211): empties the context; `EQ` and `LASTERR` stay. -/
def State.zeroCtx (s : State) : State :=
  { s with
    ctx := .none, mode := .keys, esalt := Bytes.zero 8, hsalt := Bytes.zero 8,
    iv := Bytes.zero 16, ekey := Bytes.zero 32, hkey := Bytes.zero 32 }

/-- Writes the whole context at once, as every successful build does (R32). -/
def State.loadCtx (s : State) (ctx : Ctx) (mode : Mode) (esalt hsalt : Bytes 8) (iv : Bytes 16)
    (ekey hkey : Bytes 32) : State :=
  { s with
    ctx := ctx, mode := mode, esalt := esalt, hsalt := hsalt, iv := iv, ekey := ekey, hkey := hkey }

/-- Writes the comparator's verdict to `EQ` (R24). -/
def State.setEq (s : State) (verdict : Bool) : State := { s with eq := verdict }

/-! ## The end of a command -/

/-- A response packet: `status ‖ enc32(|payload|) ‖ payload` (R77). -/
def responsePacket (st : Status) (payload : List Byte) : List Byte :=
  BitVec.ofNat 8 st.code :: enc32 payload.length ++ payload

/-- Sends one response packet on `RSP` (R58, R77). -/
def State.emit (s : State) (st : Status) (payload : List Byte) : State :=
  { s with rsp := s.rsp ++ [responsePacket st payload] }

/-- `return OK(p)` (R10, R210): `LASTERR` gets `OK` and the payload is sent. -/
def State.returnOk (s : State) (payload : List Byte) : State :=
  { s with lasterr := .ok }.emit .ok payload

/-- `raise E`: THE ONE WAY AN ERROR IS TAKEN (R250, R267). What the command wrote before stays,
`LASTERR` gets the code, a response with an empty payload is sent. Nothing is saved, no mode
changes, control goes nowhere: the next packet is decoded as after a success. There is no return
from an error, since nothing is entered (R268). -/
def State.raiseError (s : State) (e : Status) : State :=
  { s with lasterr := e }.emit e []

/-- How a command's pseudocode ends (R10, R11): a payload, or one error code. -/
inductive CmdEnd where
  | ok (payload : List Byte)
  | raise (e : Status)
  deriving DecidableEq, Repr

/-- The status code a command ends with. -/
def CmdEnd.status : CmdEnd → Status
  | .ok _ => .ok
  | .raise e => e

/-- The payload a command ends with: empty after an error (R11, R77). -/
def CmdEnd.payload : CmdEnd → List Byte
  | .ok p => p
  | .raise _ => []

/-- The end of the pseudocode as a change of state (R210). -/
def State.conclude (s : State) : CmdEnd → State
  | .ok payload => s.returnOk payload
  | .raise e => s.raiseError e

/-- The frame of every command but `GET_STATUS` (R210): its pseudocode has run, giving its end and
the state it left. The machine always goes on (R11, R293). -/
def complete (r : CmdEnd × State) : Host.Outcome State Fault Refusal := .next (r.2.conclude r.1)

/-! ## The randomness port -/

/-- What the port answers to the next draw: the first answer in line, or the free value (R63). -/
def State.nextAnswer (s : State) : RngAnswer :=
  match s.rng with
  | a :: _ => a
  | [] => Config.freeDraw s.draws

/-- The port after a draw: an answer is used up and the draw is counted (R55). -/
def State.drawn (s : State) : State := { s with rng := s.rng.tail, draws := s.draws + 1 }

/-- The port after `k` draws. -/
def State.drawnTimes : Nat → State → State
  | 0, s => s
  | k + 1, s => State.drawnTimes k s.drawn

/-- `RngDraw(n)` for n = 8 or 16 (R63): n bytes or `Fail` (`none`), and the port after it. -/
def State.rngDraw (s : State) (n : Nat) : Option (Bytes n) × State :=
  match s.nextAnswer with
  | .ok b => (some (Bytes.fit n (b.val.take n)), s.drawn)
  | .fail => (none, s.drawn)

/-- What `GenSaltsIv()` draws (R191). -/
structure Drawn where
  esalt : Bytes 8
  hsalt : Bytes 8
  iv : Bytes 16
  deriving DecidableEq, Repr

/-- `GenSaltsIv()` (R191): three draws in this order, the first failure ends the sequence and the
later draws are not made. -/
def State.genSaltsIv (s : State) : Option Drawn × State :=
  match s.rngDraw 8 with
  | (none, s1) => (none, s1)
  | (some r1, s1) =>
    match s1.rngDraw 8 with
    | (none, s2) => (none, s2)
    | (some r2, s2) =>
      match s2.rngDraw 16 with
      | (none, s3) => (none, s3)
      | (some r3, s3) => (some ⟨r1, r2, r3⟩, s3)

/-! ## Reset and the host's inputs -/

/-- The reset event (R280): every register takes its value of R33. The ports and the capacities are
not registers: what was sent stays sent, and packets behind the reset are served after it. -/
def State.resetEngine (s : State) : State :=
  { State.reset with cfg := s.cfg, inputs := s.inputs, rsp := s.rsp, rng := s.rng, draws := s.draws }

/-- Reset while a command is in progress (R280, U19): it is abandoned without a response, the draws
it had made are gone, and the state is the reset state. -/
def State.abandon (s : State) (draws : Nat) : State := (s.drawnTimes draws).resetEngine

/-- A packet that `Decode` maps to `Illegal` (R210, R261): `ERR_ILLEGAL_CMD`, whatever the reason. -/
def rejectPacket (_why : Illegal) (s : State) : Host.Outcome State Fault Refusal :=
  complete (.raise .illegalCmd, s)

/-- No packet waits: the engine holds its state (R275; log entry 2). -/
def idle (s : State) : Host.Outcome State Fault Refusal := .next s

/-- The host's next event in order of arrival, and the state with it taken (R58). -/
def State.takeInput (s : State) : Option (HostEvent × State) :=
  match s.inputs with
  | [] => none
  | e :: rest => some (e, { s with inputs := rest })

end Sys2Proof.Machine
end

