-- ==== Sys2Proof/Machine/Frame.lean ====
section
/-! DEFINITION. The message frame: header builder, header parser, assembly and disassembly
(30_encoding.md rules R70, R80 to R87; 43_frame.md rules R192 to R197). -/

namespace Sys2Proof.Machine

/-- `VERSION` (R6, R82). -/
def versionByte : Byte := 3

/-- `MIN_MSG` (R6, R194). -/
def minMsg : Nat := 66

/-- `TAG_LEN` (R6). -/
def tagLen : Nat := 32

/-- The mode byte of a header: `MODE` as a byte (R83, R192). -/
def Mode.byte (m : Mode) : Byte := BitVec.ofNat 8 m.code

/-- `HdrLen(mode)` (R84). -/
def hdrLen : Mode → Nat
  | .password => 34
  | .keys => 18

/-- `Hdr()` (R192). -/
def State.hdr (s : State) : List Byte :=
  match s.mode with
  | .password => versionByte :: s.mode.byte :: (s.esalt.val ++ s.hsalt.val ++ s.iv.val)
  | .keys => versionByte :: s.mode.byte :: s.iv.val

/-- What `ParseHeader` finds (R193). -/
structure Header where
  esalt : Bytes 8
  hsalt : Bytes 8
  iv : Bytes 16
  deriving DecidableEq, Repr

/-- The fields of a header of the given layout (R80, R81, R193). In key-pair mode there are no
salts and both are zero (R190). -/
def headerFields (m : List Byte) : Mode → Header
  | .password =>
    ⟨Bytes.fit 8 (slice m 2 10), Bytes.fit 8 (slice m 10 18), Bytes.fit 16 (slice m 18 34)⟩
  | .keys => ⟨Bytes.zero 8, Bytes.zero 8, Bytes.fit 16 (slice m 2 18)⟩

/-- `ParseHeader(m, want)` (R193): length, then version byte, then mode byte. -/
def parseHeader (m : List Byte) (want : Mode) : Except Status Header :=
  if m.length < minMsg then .error .shortInput
  else if m.getD 0 0 ≠ versionByte then .error .format
  else if m.getD 1 0 ≠ want.byte then .error .format
  else .ok (headerFields m want)

/-- `Frame(h, c, t)` (R86). -/
def frame (h c t : List Byte) : List Byte := h ++ c ++ t

/-- `CtOf(m, H)` (R87). -/
def ctOf (m : List Byte) (h : Nat) : List Byte := slice m h (m.length - tagLen)

/-- `TagOf(m)` (R87). -/
def tagOf (m : List Byte) : List Byte := slice m (m.length - tagLen) m.length

end Sys2Proof.Machine
end

