-- ==== Sys2Proof/Machine/Encrypt.lean ====
section
/-! DEFINITION. The encrypt side: ENC_BUILD_PW, ENC_BUILD_KEYS, ENCRYPT, ENCRYPT_MSG
(44_commands.md rules R214 to R217). -/

namespace Sys2Proof.Machine

/-- Writes a password context: both keys derived, each from its own salt (R107, R214). -/
def State.loadPassword (s : State) (ctx : Ctx) (password : List Byte) (esalt hsalt : Bytes 8)
    (iv : Bytes 16) : State :=
  s.loadCtx ctx .password esalt hsalt iv (kdf password esalt) (kdf password hsalt)

/-- The pseudocode of ENC_BUILD_PW (R214). -/
def runEncBuildPw (password : List Byte) (esalt hsalt : Bytes 8) (iv : Bytes 16) (s : State) :
    CmdEnd × State :=
  let s := s.zeroCtx
  if s.passwordTooLong password then (.raise .inputSize, s)
  else if password.length = 0 then (.raise .inputSize, s)
  else (.ok [], s.loadPassword .enc password esalt hsalt iv)

/-- ENC_BUILD_PW (R214). -/
def execEncBuildPw (password : List Byte) (esalt hsalt : Bytes 8) (iv : Bytes 16) (s : State) :
    Host.Outcome State Fault Refusal :=
  complete (runEncBuildPw password esalt hsalt iv s)

/-- ENC_BUILD_KEYS (R215): the salts stay zero, no check is made. -/
def execEncBuildKeys (ekey hkey : Bytes 32) (iv : Bytes 16) (s : State) :
    Host.Outcome State Fault Refusal :=
  complete (.ok [], s.zeroCtx.loadCtx .enc .keys (Bytes.zero 8) (Bytes.zero 8) iv ekey hkey)

/-- The message `ENCRYPT` makes from the context and a plaintext (R216, its last four lines). -/
def State.message (s : State) (plaintext : List Byte) : List Byte :=
  let ct := encryptBody s.ekey s.iv plaintext
  frame s.hdr ct (macTag s.hkey s.hdr ct)

/-- The pseudocode of ENCRYPT (R216). -/
def runEncrypt (plaintext : List Byte) (s : State) : CmdEnd × State :=
  if s.plaintextTooLong plaintext then (.raise .inputSize, s)
  else if s.ctx ≠ .enc then (.raise .sequence, s)
  else (.ok (s.message plaintext), s)

/-- ENCRYPT (R216). -/
def execEncrypt (plaintext : List Byte) (s : State) : Host.Outcome State Fault Refusal :=
  complete (runEncrypt plaintext s)

/-- The pseudocode of ENCRYPT_MSG (R217): checks, three draws, build, encrypt, empty. -/
def runEncryptMsg (password plaintext : List Byte) (s : State) : CmdEnd × State :=
  let s := s.zeroCtx
  if s.passwordTooLong password ∨ s.plaintextTooLong plaintext then (.raise .inputSize, s)
  else if password.length = 0 then (.raise .inputSize, s)
  else
    match s.genSaltsIv with
    | (none, s) => (.raise .rng, s)
    | (some g, s) =>
      let s := s.loadPassword .enc password g.esalt g.hsalt g.iv
      (.ok (s.message plaintext), s.zeroCtx)

/-- ENCRYPT_MSG (R217). -/
def execEncryptMsg (password plaintext : List Byte) (s : State) :
    Host.Outcome State Fault Refusal :=
  complete (runEncryptMsg password plaintext s)

end Sys2Proof.Machine
end

