-- ==== Sys2Proof/Machine/Decrypt.lean ====
section
/-! DEFINITION. The decrypt side: DEC_BUILD_PW, DEC_BUILD_KEYS, DECRYPT, DECRYPT_MSG
(44_commands.md rules R218 to R221). -/

namespace Sys2Proof.Machine

/-- The pseudocode of DEC_BUILD_PW (R218). -/
def runDecBuildPw (password message : List Byte) (s : State) : CmdEnd × State :=
  let s := s.zeroCtx
  if s.passwordTooLong password ∨ s.messageTooLong message then (.raise .inputSize, s)
  else
    match parseHeader message .password with
    | .error e => (.raise e, s)
    | .ok f => (.ok [], s.loadPassword .dec password f.esalt f.hsalt f.iv)

/-- DEC_BUILD_PW (R218). -/
def execDecBuildPw (password message : List Byte) (s : State) :
    Host.Outcome State Fault Refusal :=
  complete (runDecBuildPw password message s)

/-- The pseudocode of DEC_BUILD_KEYS (R219): the salts stay zero. -/
def runDecBuildKeys (ekey hkey : Bytes 32) (message : List Byte) (s : State) : CmdEnd × State :=
  let s := s.zeroCtx
  if s.messageTooLong message then (.raise .inputSize, s)
  else
    match parseHeader message .keys with
    | .error e => (.raise e, s)
    | .ok f => (.ok [], s.loadCtx .dec .keys (Bytes.zero 8) (Bytes.zero 8) f.iv ekey hkey)

/-- DEC_BUILD_KEYS (R219). -/
def execDecBuildKeys (ekey hkey : Bytes 32) (message : List Byte) (s : State) :
    Host.Outcome State Fault Refusal :=
  complete (runDecBuildKeys ekey hkey message s)

/-- The verdict of the tag comparison of `DECRYPT` (R220): the last 32 bytes of the message against
the tag of the context's own header and the ciphertext part. -/
def State.tagVerdict (s : State) (message : List Byte) : Bool :=
  ctEq (tagOf message) (macTag s.hkey s.hdr (ctOf message (hdrLen s.mode)))

/-- The pseudocode of DECRYPT (R220): the tag first, and nothing decrypted before it matched. -/
def runDecrypt (message : List Byte) (s : State) : CmdEnd × State :=
  if s.messageTooLong message then (.raise .inputSize, s)
  else if s.ctx ≠ .dec then (.raise .sequence, s)
  else if message.length < hdrLen s.mode + tagLen then (.raise .noTag, s)
  else if s.tagVerdict message = false then (.raise .hmac, s.setEq false)
  else
    match decryptBody s.ekey s.iv (ctOf message (hdrLen s.mode)) with
    | none => (.raise .unpad, s.setEq true)
    | some plaintext => (.ok plaintext, s.setEq true)

/-- DECRYPT (R220). -/
def execDecrypt (message : List Byte) (s : State) : Host.Outcome State Fault Refusal :=
  complete (runDecrypt message s)

/-- The pseudocode of DECRYPT_MSG (R221): that of DEC_BUILD_PW, then that of DECRYPT, then empty. -/
def runDecryptMsg (password message : List Byte) (s : State) : CmdEnd × State :=
  match runDecBuildPw password message s with
  | (.raise e, s) => (.raise e, s.zeroCtx)
  | (.ok _, s) => ((runDecrypt message s).1, (runDecrypt message s).2.zeroCtx)

/-- DECRYPT_MSG (R221). -/
def execDecryptMsg (password message : List Byte) (s : State) :
    Host.Outcome State Fault Refusal :=
  complete (runDecryptMsg password message s)

end Sys2Proof.Machine
end

