-- ==== Sys2Proof/Machine/Housekeeping.lean ====
section
/-! DEFINITION. The housekeeping commands GET_STATUS, CLEAR (44_commands.md rules R212, R213) and
GET_HDR (43_frame.md rule R199). -/

namespace Sys2Proof.Machine

/-- GET_STATUS (R212): the status byte as it stands; the one command that does not write `LASTERR`
(R210). -/
def execGetStatus (s : State) : Host.Outcome State Fault Refusal :=
  .next (s.emit .ok [s.statusByte])

/-- CLEAR (R213). -/
def execClear (s : State) : Host.Outcome State Fault Refusal := complete (.ok [], s.zeroCtx)

/-- The pseudocode of GET_HDR (R199). -/
def runGetHdr (s : State) : CmdEnd × State :=
  if s.ctx = .none then (.raise .sequence, s) else (.ok s.hdr, s)

/-- GET_HDR (R199). -/
def execGetHdr (s : State) : Host.Outcome State Fault Refusal := complete (runGetHdr s)

end Sys2Proof.Machine
end

