-- ==== Sys2Proof/Machine/Unit.lean ====
section
/-! DEFINITION. The unit commands KDF (40_kdf.md rule R109), TAG and CTEQ (42_hmac_compare.md rules
R178, R179). -/

namespace Sys2Proof.Machine

/-- The pseudocode of KDF (R109): an empty password is accepted. -/
def runKdf (password : List Byte) (salt : Bytes 8) (s : State) : CmdEnd × State :=
  if s.passwordTooLong password then (.raise .inputSize, s) else (.ok (kdf password salt).val, s)

/-- KDF (R109). -/
def execKdf (password : List Byte) (salt : Bytes 8) (s : State) :
    Host.Outcome State Fault Refusal :=
  complete (runKdf password salt s)

/-- The pseudocode of TAG (R178): the key is the operand, not `HKEY`. -/
def runTag (key : Bytes 32) (data : List Byte) (s : State) : CmdEnd × State :=
  if s.messageTooLong data then (.raise .inputSize, s) else (.ok (hmacSha256 key.val data), s)

/-- TAG (R178). -/
def execTag (key : Bytes 32) (data : List Byte) (s : State) : Host.Outcome State Fault Refusal :=
  complete (runTag key data s)

/-- The pseudocode of CTEQ (R179): "not equal" is a verdict, not an error. -/
def runCteq (a b : List Byte) (s : State) : CmdEnd × State :=
  if s.messageTooLong a ∨ s.messageTooLong b then (.raise .inputSize, s)
  else (.ok [if ctEq a b then 0x01 else 0x00], s.setEq (ctEq a b))

/-- CTEQ (R179). -/
def execCteq (a b : List Byte) (s : State) : Host.Outcome State Fault Refusal :=
  complete (runCteq a b s)

end Sys2Proof.Machine
end

