-- ==== Sys2Proof/Machine/Dispatch.lean ====
section
/-! DEFINITION. One arm per command (30_encoding.md rule R74). -/

namespace Sys2Proof.Machine

def exec (i : Instr) (s : State) : Host.Outcome State Fault Refusal :=
  match i with
  | .getStatus => Sys2Proof.Machine.execGetStatus s
  | .clear => Sys2Proof.Machine.execClear s
  | .getHdr => Sys2Proof.Machine.execGetHdr s
  | .encBuildPw password esalt hsalt iv => Sys2Proof.Machine.execEncBuildPw password esalt hsalt iv s
  | .encBuildKeys ekey hkey iv => Sys2Proof.Machine.execEncBuildKeys ekey hkey iv s
  | .encrypt plaintext => Sys2Proof.Machine.execEncrypt plaintext s
  | .encryptMsg password plaintext => Sys2Proof.Machine.execEncryptMsg password plaintext s
  | .decBuildPw password message => Sys2Proof.Machine.execDecBuildPw password message s
  | .decBuildKeys ekey hkey message => Sys2Proof.Machine.execDecBuildKeys ekey hkey message s
  | .decrypt message => Sys2Proof.Machine.execDecrypt message s
  | .decryptMsg password message => Sys2Proof.Machine.execDecryptMsg password message s
  | .kdf password salt => Sys2Proof.Machine.execKdf password salt s
  | .tag key data => Sys2Proof.Machine.execTag key data s
  | .cteq a b => Sys2Proof.Machine.execCteq a b s

end Sys2Proof.Machine
end

