-- ==== Sys2Proof/Machine/Step.lean ====
section
/-! DEFINITION. One step: the host's next event, served to its end (20_memory.md rule R58;
44_commands.md rule R210; 70_reset_and_hazards.md rule R280). -/

namespace Sys2Proof.Machine

/-- Takes the next event in order of arrival. A packet is decoded and run, or answered
`ERR_ILLEGAL_CMD` (R210); a reset resets (R280); with nothing waiting the state stays. -/
def step (s : State) : Host.Outcome State Fault Refusal :=
  match s.takeInput with
  | none => idle s
  | some (.packet p, s) =>
    match decode p with
    | .ok i => exec i s
    | .error why => rejectPacket why s
  | some (.reset, s) => .next s.resetEngine
  | some (.resetDuring _ draws, s) => .next (s.abandon draws)

/-- The state with a table word's packet as the next event (log entry 1). -/
def State.withFetchWord (s : State) (nbits w : Nat) : State :=
  { s with inputs := .packet (tablePacket nbits w) :: s.inputs }

end Sys2Proof.Machine
end

