-- ==== Sys2Proof/Machine/Text.lean ====
section
/-! DEFINITION. The textual form of a command line and of an expected response (30_encoding.md rule
R88): a reader that gives the packet, and a printer. The machine does not use it. -/

namespace Sys2Proof.Machine

/-- The mnemonic of each row of the opcode map (R74). -/
def mnemonic : Op → List Char
  | .getStatus => "GET_STATUS".toList
  | .clear => "CLEAR".toList
  | .getHdr => "GET_HDR".toList
  | .encBuildPw => "ENC_BUILD_PW".toList
  | .encBuildKeys => "ENC_BUILD_KEYS".toList
  | .encrypt => "ENCRYPT".toList
  | .encryptMsg => "ENCRYPT_MSG".toList
  | .decBuildPw => "DEC_BUILD_PW".toList
  | .decBuildKeys => "DEC_BUILD_KEYS".toList
  | .decrypt => "DECRYPT".toList
  | .decryptMsg => "DECRYPT_MSG".toList
  | .kdf => "KDF".toList
  | .tag => "TAG".toList
  | .cteq => "CTEQ".toList

/-- The name of each status code (R251). -/
def Status.name : Status → List Char
  | .ok => "OK".toList
  | .tagGen => "ERR_TAG_GEN".toList
  | .hmac => "ERR_HMAC".toList
  | .noTag => "ERR_NO_TAG".toList
  | .inputSize => "ERR_INPUT_SIZE".toList
  | .shortInput => "ERR_SHORT_INPUT".toList
  | .rng => "ERR_RNG".toList
  | .unpad => "ERR_UNPAD".toList
  | .format => "ERR_FORMAT".toList
  | .sequence => "ERR_SEQUENCE".toList
  | .illegalCmd => "ERR_ILLEGAL_CMD".toList

/-- Every status code, in the order of R251. -/
def Status.all : List Status :=
  [.ok, .tagGen, .hmac, .noTag, .inputSize, .shortInput, .rng, .unpad, .format, .sequence, .illegalCmd]

/-- A space, a tab or a line break (log entry 17). -/
def isBlank (c : Char) : Bool := c == ' ' || c == '\t' || c == '\n'

/-- Part of a mnemonic or of a status name: it ends at a blank or at a comment. -/
def isWordChar (c : Char) : Bool := !isBlank c && c != '#'

/-- The text after leading blanks. -/
def skipBlanks (t : List Char) : List Char := t.dropWhile isBlank

/-- The value of a hex digit, of either case. -/
def hexValue (c : Char) : Option Nat :=
  if '0' ≤ c ∧ c ≤ '9' then some (c.toNat - 48)
  else if 'a' ≤ c ∧ c ≤ 'f' then some (c.toNat - 87)
  else if 'A' ≤ c ∧ c ≤ 'F' then some (c.toNat - 55)
  else none

/-- The inside of `x"..."` and its closing quote: pairs of hex digits, blanks allowed between pairs. -/
def readHex : List Char → Option (List Byte × List Char)
  | [] => none
  | '"' :: t => some ([], t)
  | [_] => none
  | c :: d :: t =>
    if isBlank c then readHex (d :: t)
    else
      match hexValue c, hexValue d, readHex t with
      | some h, some l, some (b, t) => some (BitVec.ofNat 8 (16 * h + l) :: b, t)
      | _, _, _ => none

/-- The inside of `"..."` and its closing quote: printable ASCII, each character its byte value. -/
def readAscii : List Char → Option (List Byte × List Char)
  | [] => none
  | c :: t =>
    if c = '"' then some ([], t)
    else if 32 ≤ c.toNat ∧ c.toNat ≤ 126 then
      (readAscii t).map (fun r => (BitVec.ofNat 8 c.toNat :: r.1, r.2))
    else none

/-- One operand, `x"..."` or `"..."`. -/
def readOperand : List Char → Option (List Byte × List Char)
  | 'x' :: '"' :: t => readHex t
  | '"' :: t => readAscii t
  | _ => none

/-- An operand as it goes into the packet: a fixed one must have exactly its size (R88). -/
def operandPacket (b : List Byte) : OperandKind → Option (List Byte)
  | .fix n => if b.length = n then some b else none
  | .var => some (varOperand b)

/-- The operands of the given kinds, separated by commas, as packet bytes. -/
def readOperands : List OperandKind → List Char → Option (List Byte × List Char)
  | [], t => some ([], t)
  | k :: ks, t =>
    match readOperand (skipBlanks t) with
    | none => none
    | some (b, t) =>
      match operandPacket b k with
      | none => none
      | some p =>
        match ks, skipBlanks t with
        | [], t => some (p, t)
        | k' :: ks', c :: t =>
          if c = ',' then (readOperands (k' :: ks') t).map (fun r => (p ++ r.1, r.2)) else none
        | _ :: _, [] => none

/-- Nothing, or a comment, may follow on the line. -/
def lineEnds (t : List Char) : Bool :=
  match skipBlanks t with
  | [] => true
  | c :: _ => c == '#'

/-- The packet a command line stands for (R88): "each line is one packet". -/
def assemble (line : List Char) : Option (List Byte) :=
  let t := skipBlanks line
  match Op.all.find? (fun o => mnemonic o == t.takeWhile isWordChar) with
  | none => none
  | some o =>
    match readOperands o.format.kinds (t.dropWhile isWordChar) with
    | none => none
    | some (p, t) => if lineEnds t then some (o.code :: p) else none

/-- The response packet an expected-response line stands for: `-> OK x"..."` or `-> ERR_<NAME>`
(R88); `-> OK` alone is an empty payload (log entry 17). -/
def expected (line : List Char) : Option (List Byte) :=
  match skipBlanks line with
  | '-' :: '>' :: t =>
    let t := skipBlanks t
    match Status.all.find? (fun st => st.name == t.takeWhile isWordChar) with
    | none => none
    | some st =>
      let t := t.dropWhile isWordChar
      if lineEnds t then some (responsePacket st [])
      else if st = .ok then
        match readOperand (skipBlanks t) with
        | some (b, t) => if lineEnds t then some (responsePacket .ok b) else none
        | none => none
      else none
  | _ => none

/-- A hex digit. -/
def hexDigit (n : Nat) : Char := "0123456789abcdef".toList.getD n '0'

/-- A byte string as `x"..."`. -/
def printOperand (b : List Byte) : List Char :=
  'x' :: '"' :: b.flatMap (fun x => [hexDigit (x.toNat / 16), hexDigit (x.toNat % 16)]) ++ ['"']

/-- Operands separated by commas, after a blank. -/
def printOperands : List (List Byte) → List Char
  | [] => []
  | [b] => ' ' :: printOperand b
  | b :: bs => ' ' :: printOperand b ++ ',' :: printOperands bs

/-- The operands of a command, in packet order (R74). -/
def operandList : Instr → List (List Byte)
  | .getStatus => []
  | .clear => []
  | .getHdr => []
  | .encBuildPw password esalt hsalt iv => [password, esalt.val, hsalt.val, iv.val]
  | .encBuildKeys ekey hkey iv => [ekey.val, hkey.val, iv.val]
  | .encrypt plaintext => [plaintext]
  | .encryptMsg password plaintext => [password, plaintext]
  | .decBuildPw password message => [password, message]
  | .decBuildKeys ekey hkey message => [ekey.val, hkey.val, message]
  | .decrypt message => [message]
  | .decryptMsg password message => [password, message]
  | .kdf password salt => [password, salt.val]
  | .tag key data => [key.val, data]
  | .cteq a b => [a, b]

/-- A command as a line of text (R88). -/
def printInstr (i : Instr) : List Char := mnemonic i.op ++ printOperands (operandList i)

end Sys2Proof.Machine
end

