-- ==== Sys2Proof/Safety.lean ====
section
/-! DEFINITION. The words statements use: the context invariants (10_state.md rule R31), the empty
context (44_commands.md rule R211), what a response looks like on the port (30_encoding.md rule
R77), and when each error is due (60_exceptions.md rules R253 to R260). -/

namespace Sys2Proof.Machine

/-! ## Contexts -/

/-- The context is empty: what `ZeroCtx()` leaves (R211). -/
structure State.CtxEmpty (s : State) : Prop where
  ctx : s.ctx = .none
  mode : s.mode = .keys
  esalt : s.esalt = Bytes.zero 8
  hsalt : s.hsalt = Bytes.zero 8
  iv : s.iv = Bytes.zero 16
  ekey : s.ekey = Bytes.zero 32
  hkey : s.hkey = Bytes.zero 32

/-- The context invariants of R31. Part (a) is the type of `ctx`. -/
structure State.CtxInv (s : State) : Prop where
  /-- (b) No object: everything is zero. -/
  empty : s.ctx = .none → s.CtxEmpty
  /-- (c) A key-pair object: the salts are zero. -/
  keyPair : s.ctx ≠ .none → s.mode = .keys → s.esalt = Bytes.zero 8 ∧ s.hsalt = Bytes.zero 8
  /-- (d) A password object: both keys come from one password and the two salts. -/
  derived : s.ctx ≠ .none → s.mode = .password →
    ∃ password, s.ekey = kdf password s.esalt ∧ s.hkey = kdf password s.hsalt

/-- Two states hold the same context: CTX, MODE and the five data registers agree (R32). -/
structure State.SameCtx (s t : State) : Prop where
  ctx : t.ctx = s.ctx
  mode : t.mode = s.mode
  esalt : t.esalt = s.esalt
  hsalt : t.hsalt = s.hsalt
  iv : t.iv = s.iv
  ekey : t.ekey = s.ekey
  hkey : t.hkey = s.hkey

/-- Two states agree on everything but the five data registers. -/
structure State.SameButRegisters (s t : State) : Prop where
  ctx : t.ctx = s.ctx
  mode : t.mode = s.mode
  eq : t.eq = s.eq
  lasterr : t.lasterr = s.lasterr
  cfg : t.cfg = s.cfg
  inputs : t.inputs = s.inputs
  rsp : t.rsp = s.rsp
  rng : t.rng = s.rng
  draws : t.draws = s.draws

/-! ## Responses -/

/-- A successful response on the port: `00`, the payload's length, the payload (R77). -/
def okPacket (payload : List Byte) : List Byte := 0x00 :: enc32 payload.length ++ payload

/-- An error response on the port: the 5 bytes `code 00 00 00 00` (R77, R250). -/
def errPacket (code : Byte) : List Byte := [code, 0x00, 0x00, 0x00, 0x00]

/-- The state with `LASTERR` written and one packet sent on `RSP`; nothing else changes. -/
def State.answered (s : State) (e : Status) (packet : List Byte) : State :=
  { s with lasterr := e, rsp := s.rsp ++ [packet] }

/-! ## The randomness port -/

/-- The answer the randomness port will give to the k-th draw from here, counted from 0 (R63): the
answers in line first, then the free value. -/
def State.answer (s : State) (k : Nat) : RngAnswer :=
  match s.rng[k]? with
  | some a => a
  | none => Config.freeDraw (s.draws + k)

/-- The state after `k` draws: nothing but the port has changed. -/
def State.afterDraws (s : State) (k : Nat) : State :=
  { s with rng := s.rng.drop k, draws := s.draws + k }

/-- The first eight bytes of an answer, which a salt draw takes (R191). -/
def saltOf (b : Bytes 16) : Bytes 8 := ⟨b.val.take 8, by simp [b.property]⟩

/-! ## When each error is due -/

/-- R255: a variable operand beyond its capacity, or an empty password on the encrypt side. -/
def dueInputSize (c : Config) : Instr → Prop
  | .encBuildPw pw _ _ _ => c.maxPw < pw.length ∨ pw.length = 0
  | .encrypt pt => c.maxData < pt.length
  | .encryptMsg pw pt => c.maxPw < pw.length ∨ c.maxData < pt.length ∨ pw.length = 0
  | .decBuildPw pw m => c.maxPw < pw.length ∨ c.maxData + 82 < m.length
  | .decBuildKeys _ _ m => c.maxData + 82 < m.length
  | .decrypt m => c.maxData + 82 < m.length
  | .decryptMsg pw m => c.maxPw < pw.length ∨ c.maxData + 82 < m.length
  | .kdf pw _ => c.maxPw < pw.length
  | .tag _ d => c.maxData + 82 < d.length
  | .cteq a b => c.maxData + 82 < a.length ∨ c.maxData + 82 < b.length
  | .getStatus => False
  | .clear => False
  | .getHdr => False
  | .encBuildKeys _ _ _ => False

/-- R260: a command that needs a context which is not there. -/
def dueSequence (s : State) : Instr → Prop
  | .encrypt pt => pt.length ≤ s.cfg.maxData ∧ s.ctx ≠ .enc
  | .decrypt m => m.length ≤ s.cfg.maxData + 82 ∧ s.ctx ≠ .dec
  | .getHdr => s.ctx = .none
  | _ => False

/-- R256: a build or one-shot given a message of fewer than 66 bytes. -/
def dueShortInput (c : Config) : Instr → Prop
  | .decBuildPw pw m => pw.length ≤ c.maxPw ∧ m.length < 66
  | .decBuildKeys _ _ m => m.length < 66
  | .decryptMsg pw m => pw.length ≤ c.maxPw ∧ m.length < 66
  | _ => False

/-- R259: a message of at least 66 bytes whose byte 0 is not 3 or whose byte 1 is not the mode the
credentials call for. -/
def dueFormat (c : Config) : Instr → Prop
  | .decBuildPw pw m =>
    pw.length ≤ c.maxPw ∧ 66 ≤ m.length ∧ m.length ≤ c.maxData + 82 ∧
      (m.getD 0 0 ≠ 0x03 ∨ m.getD 1 0 ≠ 0x01)
  | .decBuildKeys _ _ m =>
    66 ≤ m.length ∧ m.length ≤ c.maxData + 82 ∧ (m.getD 0 0 ≠ 0x03 ∨ m.getD 1 0 ≠ 0x00)
  | .decryptMsg pw m =>
    pw.length ≤ c.maxPw ∧ 66 ≤ m.length ∧ m.length ≤ c.maxData + 82 ∧
      (m.getD 0 0 ≠ 0x03 ∨ m.getD 1 0 ≠ 0x01)
  | _ => False

/-- R254: a `DECRYPT` operand with no room for a 32-byte tag after the header. -/
def dueNoTag (s : State) : Instr → Prop
  | .decrypt m =>
    m.length ≤ s.cfg.maxData + 82 ∧ s.ctx = .dec ∧
      m.length < (if s.mode = .password then 34 else 18) + 32
  | _ => False

/-- R257: an `ENCRYPT_MSG` past its checks, one of whose three draws fails. -/
def dueRng (s : State) : Instr → Prop
  | .encryptMsg pw pt =>
    1 ≤ pw.length ∧ pw.length ≤ s.cfg.maxPw ∧ pt.length ≤ s.cfg.maxData ∧
      ∃ k, k < 3 ∧ s.answer k = .fail
  | _ => False

/-- A `DECRYPT` or `DECRYPT_MSG` that reaches the comparison, with the key the tag is checked under,
the data it is checked over, and the key and IV of the body (R220, R221). -/
def reachesTag (s : State) (i : Instr) (hkey : Bytes 32) (signed : List Byte) (ekey : Bytes 32)
    (iv : Bytes 16) (ct tag : List Byte) : Prop :=
  match i with
  | .decrypt m =>
    m.length ≤ s.cfg.maxData + 82 ∧ s.ctx = .dec ∧
      (if s.mode = .password then 34 else 18) + 32 ≤ m.length ∧
      hkey = s.hkey ∧ ekey = s.ekey ∧ iv = s.iv ∧
      ct = slice m (if s.mode = .password then 34 else 18) (m.length - 32) ∧
      signed = s.hdr ++ ct ∧ tag = m.drop (m.length - 32)
  | .decryptMsg pw m =>
    pw.length ≤ s.cfg.maxPw ∧ m.length ≤ s.cfg.maxData + 82 ∧ 66 ≤ m.length ∧
      m.getD 0 0 = 0x03 ∧ m.getD 1 0 = 0x01 ∧
      hkey = kdf pw (Bytes.fit 8 (slice m 10 18)) ∧ ekey = kdf pw (Bytes.fit 8 (slice m 2 10)) ∧
      iv = Bytes.fit 16 (slice m 18 34) ∧ ct = slice m 34 (m.length - 32) ∧
      signed = m.take (m.length - 32) ∧ tag = m.drop (m.length - 32)
  | _ => False

end Sys2Proof.Machine
end

