-- ==== Sys2Proof/Certificates/Slice0/Obligations.lean ====
section
/-! DEFINITION. The statements for the provers. -/

open Sys2Proof Sys2Proof.Machine

/-! ## Packets -/

/-- R75: `Decode(Encode(c)) = c` for every command whose variable operands are shorter than 2^32
bytes, with every operand at every value. -/
def Obligations.DecodeOfEncodeIsTheCommand : Prop :=
  ∀ i : Instr, WellFormed i = true → decode (encode i) = .ok i

/-- R75: a packet is legal exactly when it is the encoding of a command; no bit of it is dropped. -/
def Obligations.EncodeOfDecodeIsThePacket : Prop :=
  ∀ (p : List Byte) (i : Instr), decode p = .ok i → encode i = p ∧ WellFormed i = true

/-- R74, R76: the 242 opcode bytes outside the map are illegal, whatever follows. -/
def Obligations.UnmappedOpcodesAreIllegal : Prop :=
  ∀ (b : Byte) (p : List Byte),
    b.toNat ∉ [0x00, 0x01, 0x02, 0x10, 0x11, 0x12, 0x13, 0x20, 0x21, 0x22, 0x23, 0x30, 0x31, 0x32] →
    decode (b :: p) = .error (.unknownOpcode b)

/-- R78: the spec's worked encodings, read by the decoder. -/
def Obligations.WorkedEncodingsDecode : Prop :=
  decode [0x00] = .ok .getStatus ∧
  decode [0x12, 0, 0, 0, 0x0c, 0x01, 0x23, 0x45, 0x67, 0x89, 0xab, 0xcd, 0xef, 0x01, 0x23, 0x45, 0x67] =
    .ok (.encrypt [0x01, 0x23, 0x45, 0x67, 0x89, 0xab, 0xcd, 0xef, 0x01, 0x23, 0x45, 0x67]) ∧
  decode ([0x10, 0, 0, 0, 0x0b, 0x74, 0x68, 0x65, 0x70, 0x61, 0x73, 0x73, 0x77, 0x6f, 0x72, 0x64] ++
      [0x02, 0x03, 0x04, 0x05, 0x06, 0x07, 0x00, 0x01] ++ [0x03, 0x04, 0x05, 0x06, 0x07, 0x08, 0x01, 0x02] ++
      [0x04, 0x05, 0x06, 0x07, 0x08, 0x09, 0x0a, 0x0b, 0x0c, 0x0d, 0x0e, 0x0f, 0x00, 0x01, 0x02, 0x03]) =
    .ok (.encBuildPw [0x74, 0x68, 0x65, 0x70, 0x61, 0x73, 0x73, 0x77, 0x6f, 0x72, 0x64]
      ⟨[0x02, 0x03, 0x04, 0x05, 0x06, 0x07, 0x00, 0x01], rfl⟩
      ⟨[0x03, 0x04, 0x05, 0x06, 0x07, 0x08, 0x01, 0x02], rfl⟩
      ⟨[0x04, 0x05, 0x06, 0x07, 0x08, 0x09, 0x0a, 0x0b, 0x0c, 0x0d, 0x0e, 0x0f, 0x00, 0x01, 0x02, 0x03], rfl⟩) ∧
  decode [0x30, 0, 0, 0, 6, 0x73, 0x65, 0x63, 0x72, 0x65, 0x74, 0x64, 0x65, 0x61, 0x64, 0x62, 0x65, 0x65, 0x66] =
    .ok (.kdf [0x73, 0x65, 0x63, 0x72, 0x65, 0x74]
      ⟨[0x64, 0x65, 0x61, 0x64, 0x62, 0x65, 0x65, 0x66], rfl⟩) ∧
  decode [0x32, 0, 0, 0, 2, 0xaa, 0xbb, 0, 0, 0, 1, 0xaa] = .ok (.cteq [0xaa, 0xbb] [0xaa]) ∧
  decode [0x12, 0, 0, 0, 5, 0x01, 0x02] = .error .variableCutShort ∧
  decode [0x00, 0x00] = .error .trailingBytes ∧
  decode [0x03] = .error (.unknownOpcode 0x03) ∧
  decode [] = .error .emptyPacket ∧
  responsePacket .ok [0x50] = [0x00, 0, 0, 0, 1, 0x50] ∧
  responsePacket .hmac [] = [0x02, 0, 0, 0, 0]

/-- R88: the line printed for a command reads back as its packet. -/
def Obligations.PrintedCommandAssembles : Prop :=
  ∀ i : Instr, assemble (printInstr i) = some (encode i)

/-! ## The step -/

/-- R210: a step takes the first waiting packet and runs the command it decodes to. -/
def Obligations.StepRunsDecodedCommand : Prop :=
  ∀ (s : State) (p : List Byte) (rest : List HostEvent) (i : Instr),
    s.inputs = .packet p :: rest → decode p = .ok i →
    step s = exec i { s with inputs := rest }

/-- R261: a packet that does not decode is answered `0a 00000000` and changes LASTERR only; a built
context survives. -/
def Obligations.IllegalPacketChangesOnlyLasterr : Prop :=
  ∀ (s : State) (p : List Byte) (rest : List HostEvent) (why : Illegal),
    s.inputs = .packet p :: rest → decode p = .error why →
    step s = .next
      { s with inputs := rest, lasterr := .illegalCmd, rsp := s.rsp ++ [[0x0a, 0x00, 0x00, 0x00, 0x00]] }

/-- R280, U19: reset, between commands or during one, puts every register at its value of R33 and
sends nothing. That the packets behind it, the responses sent, the capacities and the port (but for
the draws of the abandoned command) stay is the model's choice (log entries 1, 3, 4, 5, 7). -/
def Obligations.ResetEventResetsEveryRegister : Prop :=
  ∀ (s : State) (rest : List HostEvent),
    (s.inputs = .reset :: rest →
      step s = .next
        { State.reset with cfg := s.cfg, inputs := rest, rsp := s.rsp, rng := s.rng, draws := s.draws }) ∧
    (∀ (p : List Byte) (k : Nat), s.inputs = .resetDuring p k :: rest →
      step s = .next
        { State.reset with
          cfg := s.cfg, inputs := rest, rsp := s.rsp, rng := s.rng.drop k, draws := s.draws + k })

/-- R58, R77, R210, R293: every command in every state goes on and sends exactly one response; an
error response has no payload; no payload is longer than MAX_DATA + 82; LASTERR gets the response's
code, but for GET_STATUS, which leaves it; the capacities and the waiting packets stay. -/
def Obligations.EveryCommandAnswersOnce : Prop :=
  ∀ (i : Instr) (s : State), ∃ (t : State) (st : Status) (payload : List Byte),
    exec i s = .next t ∧ t.rsp = s.rsp ++ [BitVec.ofNat 8 st.code :: enc32 payload.length ++ payload] ∧
    (st ≠ .ok → payload = []) ∧ payload.length ≤ s.cfg.maxData + 82 ∧
    t.lasterr = (if i = .getStatus then s.lasterr else st) ∧ t.cfg = s.cfg ∧ t.inputs = s.inputs

/-! ## Registers and flags -/

/-- R33: every piece of state after reset, and STATUS reads `00`. -/
def Obligations.ResetValues : Prop :=
  State.reset.esalt.val = List.replicate 8 0 ∧ State.reset.hsalt.val = List.replicate 8 0 ∧
  State.reset.iv.val = List.replicate 16 0 ∧ State.reset.ekey.val = List.replicate 32 0 ∧
  State.reset.hkey.val = List.replicate 32 0 ∧ State.reset.ctx.code = 0 ∧
  State.reset.mode.code = 0 ∧ State.reset.eq = false ∧ State.reset.lasterr.code = 0 ∧
  State.reset.statusByte = 0x00

/-- R26: the value of STATUS and where each field stands in it. -/
def Obligations.StatusByteHoldsTheFields : Prop :=
  ∀ s : State,
    s.statusByte.toNat =
      (if s.eq then 1 else 0) * 128 + s.mode.code * 64 + s.ctx.code * 16 + s.lasterr.code ∧
    s.statusByte.getLsbD 7 = s.eq ∧ s.statusByte.getLsbD 6 = decide (s.mode = .password) ∧
    (s.statusByte.extractLsb 5 4).toNat = s.ctx.code ∧
    (s.statusByte.extractLsb 3 0).toNat = s.lasterr.code ∧ s.lasterr.code ≤ 10

/-- R31 at reset. -/
def Obligations.ResetMeetsContextInvariants : Prop := State.reset.CtxInv

/-- R31: every step, whatever the host does, keeps the context invariants. -/
def Obligations.StepKeepsContextInvariants : Prop :=
  ∀ s t : State, s.CtxInv → step s = .next t → t.CtxInv

/-- R32: the seven commands, and an undecodable packet, never write the context. -/
def Obligations.BuiltContextIsImmutable : Prop :=
  (∀ (i : Instr) (s : State),
    (match i with
      | .encrypt _ | .decrypt _ | .getHdr | .getStatus | .kdf _ _ | .tag _ _ | .cteq _ _ => True
      | _ => False) →
    ∃ t, exec i s = .next t ∧ s.SameCtx t) ∧
  (∀ (s : State) (p : List Byte) (rest : List HostEvent) (why : Illegal),
    s.inputs = .packet p :: rest → decode p = .error why → ∃ t, step s = .next t ∧ s.SameCtx t)

/-- R211: `ZeroCtx()` zeroes the context and nothing else; every build and one-shot starts with it;
one that fails leaves the context empty. -/
def Obligations.BuildsStartFromTheEmptyContext : Prop :=
  (∀ s : State, s.zeroCtx.CtxEmpty ∧ s.zeroCtx.eq = s.eq ∧ s.zeroCtx.lasterr = s.lasterr ∧
    s.zeroCtx.cfg = s.cfg ∧ s.zeroCtx.inputs = s.inputs ∧ s.zeroCtx.rsp = s.rsp ∧
    s.zeroCtx.rng = s.rng ∧ s.zeroCtx.draws = s.draws) ∧
  (∀ (i : Instr) (s : State),
    (match i with
      | .encBuildPw _ _ _ _ | .encBuildKeys _ _ _ | .encryptMsg _ _
      | .decBuildPw _ _ | .decBuildKeys _ _ _ | .decryptMsg _ _ => True
      | _ => False) →
    exec i s = exec i s.zeroCtx ∧
    ∃ t, exec i s = .next t ∧ (t.lasterr ≠ .ok → t.CtxEmpty))

/-- R224: which context each command needs and leaves; an undecodable packet leaves it too. -/
def Obligations.SequencingTable : Prop :=
  (∀ (i : Instr) (s : State), ∃ t, exec i s = .next t ∧
    match i with
    | .getStatus => t.ctx = s.ctx
    | .kdf _ _ => t.ctx = s.ctx
    | .tag _ _ => t.ctx = s.ctx
    | .cteq _ _ => t.ctx = s.ctx
    | .clear => t.ctx = .none ∧ t.lasterr = .ok
    | .encBuildPw _ _ _ _ => t.ctx = if t.lasterr = .ok then .enc else .none
    | .encBuildKeys _ _ _ => t.ctx = if t.lasterr = .ok then .enc else .none
    | .decBuildPw _ _ => t.ctx = if t.lasterr = .ok then .dec else .none
    | .decBuildKeys _ _ _ => t.ctx = if t.lasterr = .ok then .dec else .none
    | .encrypt _ => t.ctx = s.ctx ∧ (t.lasterr = .ok → s.ctx = .enc)
    | .decrypt _ => t.ctx = s.ctx ∧ (t.lasterr = .ok → s.ctx = .dec)
    | .getHdr => t.ctx = s.ctx ∧ (t.lasterr = .ok → s.ctx ≠ .none)
    | .encryptMsg _ _ => t.ctx = .none
    | .decryptMsg _ _ => t.ctx = .none) ∧
  (∀ (s : State) (p : List Byte) (rest : List HostEvent) (why : Illegal),
    s.inputs = .packet p :: rest → decode p = .error why →
    ∃ t, step s = .next t ∧ t.ctx = s.ctx)

/-- R24, R267: EQ is written by the three commands that compare, at the comparison, and by no other. -/
def Obligations.OnlyComparisonsWriteEq : Prop :=
  ∀ (i : Instr) (s : State), ∃ t, exec i s = .next t ∧
    match i with
    | .cteq a b => t.eq = if t.lasterr = .ok then decide (a = b) else s.eq
    | .decrypt _ | .decryptMsg _ _ =>
      t.eq = if t.lasterr = .ok ∨ t.lasterr = .unpad then true
        else if t.lasterr = .hmac then false else s.eq
    | _ => t.eq = s.eq

/-- R34: with no context, the content of the data registers reaches no response and no other field;
after a build the two states are the same. -/
def Obligations.EmptyContextRegistersAreNotRead : Prop :=
  ∀ (i : Instr) (s : State) (es hs : Bytes 8) (v : Bytes 16) (ek hk : Bytes 32), s.ctx = .none →
    ∃ t u, exec i s = .next t ∧
      exec i { s with esalt := es, hsalt := hs, iv := v, ekey := ek, hkey := hk } = .next u ∧
      t.SameButRegisters u ∧ (t.ctx ≠ .none → u = t)

/-- R36: only ENCRYPT and DECRYPT depend on the key registers; for every other command a change of
EKEY and HKEY shows in no response and in no field but those two. -/
def Obligations.KeysReachOnlyEncryptAndDecrypt : Prop :=
  ∀ (i : Instr) (s : State) (ek hk : Bytes 32),
    (∀ pt, i ≠ .encrypt pt) → (∀ m, i ≠ .decrypt m) →
    ∃ t u, exec i s = .next t ∧ exec i { s with ekey := ek, hkey := hk } = .next u ∧
      t.SameButRegisters u ∧ u.esalt = t.esalt ∧ u.hsalt = t.hsalt ∧ u.iv = t.iv

/-- R63, R191: only ENCRYPT_MSG draws; refused, it draws nothing; past its checks it draws up to
and including the first failure, at most three times. -/
def Obligations.OnlyEncryptMsgDraws : Prop :=
  (∀ (i : Instr) (s : State), (∀ pw pt, i ≠ .encryptMsg pw pt) →
    ∃ t, exec i s = .next t ∧ t.rng = s.rng ∧ t.draws = s.draws) ∧
  (∀ (pw pt : List Byte) (s : State), ∃ t, exec (.encryptMsg pw pt) s = .next t ∧
    (dueInputSize s.cfg (.encryptMsg pw pt) → t.rng = s.rng ∧ t.draws = s.draws) ∧
    (¬ dueInputSize s.cfg (.encryptMsg pw pt) →
      t.draws = s.draws + (if s.answer 0 = .fail then 1 else if s.answer 1 = .fail then 2 else 3) ∧
      t.rng = s.rng.drop (t.draws - s.draws)))

/-! ## Housekeeping -/

/-- R212: GET_STATUS returns STATUS and writes nothing at all. -/
def Obligations.GetStatusResult : Prop :=
  encode .getStatus = [0x00] ∧
  (∀ s : State, exec .getStatus s = .next { s with rsp := s.rsp ++ [okPacket [s.statusByte]] }) ∧
  State.reset.statusByte = 0x00 ∧
  (∀ s : State, s.eq = false → s.mode = .keys → s.ctx = .enc → s.lasterr = .ok → s.statusByte = 0x10) ∧
  (∀ s : State, s.eq = false → s.mode = .keys → s.ctx = .dec → s.lasterr = .hmac → s.statusByte = 0x22)

/-- R213: CLEAR empties the context, keeps EQ, cannot fail. -/
def Obligations.ClearResult : Prop :=
  encode .clear = [0x01] ∧
  (∀ s : State, exec .clear s = .next
    ({ s with ctx := .none, mode := .keys, esalt := Bytes.zero 8, hsalt := Bytes.zero 8,
              iv := Bytes.zero 16, ekey := Bytes.zero 32, hkey := Bytes.zero 32 }.answered
      .ok (okPacket []))) ∧
  (∀ s : State, s.statusByte = 0xa0 → ∃ t, exec .clear s = .next t ∧ t.statusByte = 0x80)

/-- R199: GET_HDR returns the header of the context, 34 or 18 bytes; without one, ERR_SEQUENCE. -/
def Obligations.GetHdrResult : Prop :=
  encode .getHdr = [0x02] ∧
  (∀ s : State,
    (s.ctx = .none → exec .getHdr s = .next (s.answered .sequence (errPacket 0x09))) ∧
    (s.ctx ≠ .none → s.mode = .password → exec .getHdr s = .next
      (s.answered .ok (okPacket (0x03 :: 0x01 :: (s.esalt.val ++ s.hsalt.val ++ s.iv.val))))) ∧
    (s.ctx ≠ .none → s.mode = .keys → exec .getHdr s = .next
      (s.answered .ok (okPacket (0x03 :: 0x00 :: s.iv.val)))))

/-! ## Encrypt side -/

/-- R214: ENC_BUILD_PW writes the whole context from a password of 1 to MAX_PW bytes; otherwise it
leaves the context empty with ERR_INPUT_SIZE. -/
def Obligations.EncBuildPwResult : Prop :=
  ∀ (pw : List Byte) (es hs : Bytes 8) (v : Bytes 16) (s : State),
    encode (.encBuildPw pw es hs v) = 0x10 :: (enc32 pw.length ++ pw ++ es.val ++ hs.val ++ v.val) ∧
    (1 ≤ pw.length → pw.length ≤ s.cfg.maxPw → exec (.encBuildPw pw es hs v) s = .next
      ({ s with esalt := es, hsalt := hs, iv := v, ekey := kdf pw es, hkey := kdf pw hs,
                mode := .password, ctx := .enc }.answered .ok (okPacket []))) ∧
    (s.cfg.maxPw < pw.length ∨ pw.length = 0 → exec (.encBuildPw pw es hs v) s = .next
      (s.zeroCtx.answered .inputSize (errPacket 0x04)))

/-- R215: ENC_BUILD_KEYS writes the whole context from the operands, the salts zero, with no check. -/
def Obligations.EncBuildKeysResult : Prop :=
  ∀ (ek hk : Bytes 32) (v : Bytes 16) (s : State),
    encode (.encBuildKeys ek hk v) = 0x11 :: (ek.val ++ hk.val ++ v.val) ∧
    (encode (.encBuildKeys ek hk v)).length = 81 ∧
    exec (.encBuildKeys ek hk v) s = .next
      ({ s with esalt := Bytes.zero 8, hsalt := Bytes.zero 8, iv := v, ekey := ek, hkey := hk,
                mode := .keys, ctx := .enc }.answered .ok (okPacket []))

/-- R216: ENCRYPT returns header ‖ ciphertext ‖ tag and writes LASTERR only; otherwise its two
errors, capacity before context. -/
def Obligations.EncryptResult : Prop :=
  ∀ (pt : List Byte) (s : State),
    encode (.encrypt pt) = 0x12 :: (enc32 pt.length ++ pt) ∧
    (pt.length ≤ s.cfg.maxData → s.ctx = .enc → exec (.encrypt pt) s = .next
      (s.answered .ok (okPacket
        (s.hdr ++ encryptBody s.ekey s.iv pt ++
          hmacSha256 s.hkey.val (s.hdr ++ encryptBody s.ekey s.iv pt))))) ∧
    (s.cfg.maxData < pt.length →
      exec (.encrypt pt) s = .next (s.answered .inputSize (errPacket 0x04))) ∧
    (pt.length ≤ s.cfg.maxData → s.ctx ≠ .enc →
      exec (.encrypt pt) s = .next (s.answered .sequence (errPacket 0x09)))

/-- R216, R80, R81, R87, R148: what an ENCRYPT response looks like: its length, its first two
bytes, its header, and its three parts as the decoder will cut them. -/
def Obligations.EncryptPayloadLayout : Prop :=
  ∀ (pt : List Byte) (s : State), pt.length ≤ s.cfg.maxData → s.ctx = .enc →
    ∃ m, exec (.encrypt pt) s = .next (s.answered .ok (okPacket m)) ∧
      m.length = (if s.mode = .password then 34 else 18) + 16 * (pt.length / 16 + 1) + 32 ∧
      m.getD 0 0 = 0x03 ∧ m.getD 1 0 = (if s.mode = .password then 0x01 else 0x00) ∧
      m.take (hdrLen s.mode) = s.hdr ∧ ctOf m (hdrLen s.mode) = encryptBody s.ekey s.iv pt ∧
      tagOf m = macTag s.hkey s.hdr (ctOf m (hdrLen s.mode))

/-- R217: ENCRYPT_MSG with three good draws returns the message and leaves the context empty. -/
def Obligations.EncryptMsgResult : Prop :=
  ∀ (pw pt : List Byte) (s : State) (b0 b1 b2 : Bytes 16),
    1 ≤ pw.length → pw.length ≤ s.cfg.maxPw → pt.length ≤ s.cfg.maxData →
    s.answer 0 = .ok b0 → s.answer 1 = .ok b1 → s.answer 2 = .ok b2 →
    exec (.encryptMsg pw pt) s = .next
      ((s.zeroCtx.afterDraws 3).answered .ok (okPacket
        ({ s with esalt := saltOf b0, hsalt := saltOf b1, iv := b2, ekey := kdf pw (saltOf b0),
                  hkey := kdf pw (saltOf b1), mode := .password, ctx := .enc }.message pt)))

/-- R217: ENCRYPT_MSG refused by its checks makes no draw; a failing draw ends it with ERR_RNG and
the later draws are not made; the context is empty either way. -/
def Obligations.EncryptMsgErrors : Prop :=
  ∀ (pw pt : List Byte) (s : State),
    encode (.encryptMsg pw pt) = 0x13 :: (enc32 pw.length ++ pw ++ (enc32 pt.length ++ pt)) ∧
    (s.cfg.maxPw < pw.length ∨ s.cfg.maxData < pt.length ∨ pw.length = 0 →
      exec (.encryptMsg pw pt) s = .next (s.zeroCtx.answered .inputSize (errPacket 0x04))) ∧
    (1 ≤ pw.length → pw.length ≤ s.cfg.maxPw → pt.length ≤ s.cfg.maxData →
      ∀ k, k < 3 → (∀ j, j < k → s.answer j ≠ .fail) → s.answer k = .fail →
        exec (.encryptMsg pw pt) s = .next
          ((s.zeroCtx.afterDraws (k + 1)).answered .rng (errPacket 0x06)))

/-- R217: for draws r1, r2, r3, ENCRYPT_MSG answers what ENC_BUILD_PW with r1, r2, r3 and then
ENCRYPT answer. -/
def Obligations.EncryptMsgIsBuildThenEncrypt : Prop :=
  ∀ (pw pt : List Byte) (s : State) (b0 b1 b2 : Bytes 16),
    1 ≤ pw.length → pw.length ≤ s.cfg.maxPw → pt.length ≤ s.cfg.maxData →
    s.answer 0 = .ok b0 → s.answer 1 = .ok b1 → s.answer 2 = .ok b2 →
    ∃ t u v m, exec (.encryptMsg pw pt) s = .next t ∧ t.rsp = s.rsp ++ [m] ∧
      exec (.encBuildPw pw (saltOf b0) (saltOf b1) b2) s = .next u ∧
      exec (.encrypt pt) u = .next v ∧ v.rsp = u.rsp ++ [m] ∧ v.lasterr = .ok

/-! ## Decrypt side -/

/-- R218: DEC_BUILD_PW takes salts and IV from the message's header and derives both keys; an empty
password is accepted, the ciphertext and the tag are not looked at. -/
def Obligations.DecBuildPwResult : Prop :=
  ∀ (pw m : List Byte) (s : State),
    encode (.decBuildPw pw m) = 0x20 :: (enc32 pw.length ++ pw ++ (enc32 m.length ++ m)) ∧
    (pw.length ≤ s.cfg.maxPw → 66 ≤ m.length → m.length ≤ s.cfg.maxData + 82 →
      m.getD 0 0 = 0x03 → m.getD 1 0 = 0x01 →
      ∃ (es hs : Bytes 8) (v : Bytes 16),
        es.val = slice m 2 10 ∧ hs.val = slice m 10 18 ∧ v.val = slice m 18 34 ∧
        exec (.decBuildPw pw m) s = .next
          ({ s with esalt := es, hsalt := hs, iv := v, ekey := kdf pw es, hkey := kdf pw hs,
                    mode := .password, ctx := .dec }.answered .ok (okPacket []))) ∧
    (dueInputSize s.cfg (.decBuildPw pw m) →
      exec (.decBuildPw pw m) s = .next (s.zeroCtx.answered .inputSize (errPacket 0x04))) ∧
    (dueShortInput s.cfg (.decBuildPw pw m) →
      exec (.decBuildPw pw m) s = .next (s.zeroCtx.answered .shortInput (errPacket 0x05))) ∧
    (dueFormat s.cfg (.decBuildPw pw m) →
      exec (.decBuildPw pw m) s = .next (s.zeroCtx.answered .format (errPacket 0x08)))

/-- R219: DEC_BUILD_KEYS takes the IV from the message's header and the keys from the operands, the
salts zero. -/
def Obligations.DecBuildKeysResult : Prop :=
  ∀ (ek hk : Bytes 32) (m : List Byte) (s : State),
    encode (.decBuildKeys ek hk m) = 0x21 :: (ek.val ++ hk.val ++ (enc32 m.length ++ m)) ∧
    (66 ≤ m.length → m.length ≤ s.cfg.maxData + 82 → m.getD 0 0 = 0x03 → m.getD 1 0 = 0x00 →
      ∃ v : Bytes 16, v.val = slice m 2 18 ∧
        exec (.decBuildKeys ek hk m) s = .next
          ({ s with esalt := Bytes.zero 8, hsalt := Bytes.zero 8, iv := v, ekey := ek, hkey := hk,
                    mode := .keys, ctx := .dec }.answered .ok (okPacket []))) ∧
    (dueInputSize s.cfg (.decBuildKeys ek hk m) →
      exec (.decBuildKeys ek hk m) s = .next (s.zeroCtx.answered .inputSize (errPacket 0x04))) ∧
    (dueShortInput s.cfg (.decBuildKeys ek hk m) →
      exec (.decBuildKeys ek hk m) s = .next (s.zeroCtx.answered .shortInput (errPacket 0x05))) ∧
    (dueFormat s.cfg (.decBuildKeys ek hk m) →
      exec (.decBuildKeys ek hk m) s = .next (s.zeroCtx.answered .format (errPacket 0x08)))

/-- R192: after a Decryptor build has accepted a message, `Hdr()` is the message's own header. -/
def Obligations.DecryptorHeaderIsTheReceivedOne : Prop :=
  (∀ (pw m : List Byte) (s : State), pw.length ≤ s.cfg.maxPw → 66 ≤ m.length →
    m.length ≤ s.cfg.maxData + 82 → m.getD 0 0 = 0x03 → m.getD 1 0 = 0x01 →
    ∃ t, exec (.decBuildPw pw m) s = .next t ∧
      exec .getHdr t = .next (t.answered .ok (okPacket (m.take 34)))) ∧
  (∀ (ek hk : Bytes 32) (m : List Byte) (s : State), 66 ≤ m.length →
    m.length ≤ s.cfg.maxData + 82 → m.getD 0 0 = 0x03 → m.getD 1 0 = 0x00 →
    ∃ t, exec (.decBuildKeys ek hk m) s = .next t ∧
      exec .getHdr t = .next (t.answered .ok (okPacket (m.take 18))))

/-- R220: DECRYPT of a message whose tag matches returns the plaintext, or ERR_UNPAD when the body
has none; one whose tag does not match gives ERR_HMAC and nothing is decrypted. -/
def Obligations.DecryptResult : Prop :=
  ∀ (m : List Byte) (s : State) (hk : Bytes 32) (signed : List Byte) (ek : Bytes 32) (v : Bytes 16)
    (ct tag : List Byte), reachesTag s (.decrypt m) hk signed ek v ct tag →
    (∀ pt, tag = hmacSha256 hk.val signed → decryptBody ek v ct = some pt →
      exec (.decrypt m) s = .next ({ s with eq := true }.answered .ok (okPacket pt))) ∧
    (tag = hmacSha256 hk.val signed → decryptBody ek v ct = none →
      exec (.decrypt m) s = .next ({ s with eq := true }.answered .unpad (errPacket 0x07))) ∧
    (tag ≠ hmacSha256 hk.val signed →
      exec (.decrypt m) s = .next ({ s with eq := false }.answered .hmac (errPacket 0x02)))

/-- R220: the errors of DECRYPT before the comparison, in their order; EQ and the context stay. -/
def Obligations.DecryptEarlyErrors : Prop :=
  ∀ (m : List Byte) (s : State),
    encode (.decrypt m) = 0x22 :: (enc32 m.length ++ m) ∧
    (dueInputSize s.cfg (.decrypt m) →
      exec (.decrypt m) s = .next (s.answered .inputSize (errPacket 0x04))) ∧
    (dueSequence s (.decrypt m) →
      exec (.decrypt m) s = .next (s.answered .sequence (errPacket 0x09))) ∧
    (dueNoTag s (.decrypt m) →
      exec (.decrypt m) s = .next (s.answered .noTag (errPacket 0x03)))

/-- R220, R292: the first `HdrLen(MODE)` bytes of a DECRYPT operand are not read. -/
def Obligations.DecryptIgnoresOperandHeader : Prop :=
  ∀ (m m' : List Byte) (s : State), m.length = m'.length →
    m.drop (if s.mode = .password then 34 else 18) =
      m'.drop (if s.mode = .password then 34 else 18) →
    exec (.decrypt m) s = exec (.decrypt m') s

/-- R221: DECRYPT_MSG of a message that reaches the comparison: the three outcomes, the context empty
in each. -/
def Obligations.DecryptMsgResult : Prop :=
  ∀ (pw m : List Byte) (s : State) (hk : Bytes 32) (signed : List Byte) (ek : Bytes 32)
    (v : Bytes 16) (ct tag : List Byte), reachesTag s (.decryptMsg pw m) hk signed ek v ct tag →
    (∀ pt, tag = hmacSha256 hk.val signed → decryptBody ek v ct = some pt →
      exec (.decryptMsg pw m) s = .next ({ s.zeroCtx with eq := true }.answered .ok (okPacket pt))) ∧
    (tag = hmacSha256 hk.val signed → decryptBody ek v ct = none →
      exec (.decryptMsg pw m) s = .next
        ({ s.zeroCtx with eq := true }.answered .unpad (errPacket 0x07))) ∧
    (tag ≠ hmacSha256 hk.val signed →
      exec (.decryptMsg pw m) s = .next
        ({ s.zeroCtx with eq := false }.answered .hmac (errPacket 0x02)))

/-- R221: the errors of DECRYPT_MSG before the comparison; a message shorter than 66 bytes is
refused as short whatever the password. -/
def Obligations.DecryptMsgEarlyErrors : Prop :=
  ∀ (pw m : List Byte) (s : State),
    encode (.decryptMsg pw m) = 0x23 :: (enc32 pw.length ++ pw ++ (enc32 m.length ++ m)) ∧
    (dueInputSize s.cfg (.decryptMsg pw m) →
      exec (.decryptMsg pw m) s = .next (s.zeroCtx.answered .inputSize (errPacket 0x04))) ∧
    (dueShortInput s.cfg (.decryptMsg pw m) →
      exec (.decryptMsg pw m) s = .next (s.zeroCtx.answered .shortInput (errPacket 0x05))) ∧
    (dueFormat s.cfg (.decryptMsg pw m) →
      exec (.decryptMsg pw m) s = .next (s.zeroCtx.answered .format (errPacket 0x08)))

/-! ## Unit commands -/

/-- R109: KDF returns the derived key, 32 bytes, for any password within capacity, the empty one
too; it writes LASTERR only. -/
def Obligations.KdfResult : Prop :=
  ∀ (pw : List Byte) (salt : Bytes 8) (s : State),
    encode (.kdf pw salt) = 0x30 :: (enc32 pw.length ++ pw ++ salt.val) ∧
    (pw.length ≤ s.cfg.maxPw → exec (.kdf pw salt) s = .next
      (s.answered .ok (0x00 :: 0x00 :: 0x00 :: 0x00 :: 0x20 ::
        (pbkdf2Block pw salt.val 10000 1 ++ (pbkdf2Block pw salt.val 10000 2).take 12)))) ∧
    (s.cfg.maxPw < pw.length →
      exec (.kdf pw salt) s = .next (s.answered .inputSize (errPacket 0x04)))

/-- R178: TAG returns the 32-byte HMAC-SHA-256 under the key operand, whatever HKEY holds; it writes
LASTERR only. It is the tag ENCRYPT appends when the data are header and ciphertext. -/
def Obligations.TagResult : Prop :=
  (∀ (k : Bytes 32) (d : List Byte) (s : State),
    encode (.tag k d) = 0x31 :: (k.val ++ (enc32 d.length ++ d)) ∧
    (d.length ≤ s.cfg.maxData + 82 → exec (.tag k d) s = .next
      (s.answered .ok (0x00 :: 0x00 :: 0x00 :: 0x00 :: 0x20 :: hmacSha256 k.val d))) ∧
    (s.cfg.maxData + 82 < d.length →
      exec (.tag k d) s = .next (s.answered .inputSize (errPacket 0x04)))) ∧
  (∀ (k : Bytes 32) (header ct : List Byte), hmacSha256 k.val (header ++ ct) = macTag k header ct) ∧
  hmacSha256 (List.replicate 32 0) [] =
    [0xb6, 0x13, 0x67, 0x9a, 0x08, 0x14, 0xd9, 0xec, 0x77, 0x2f, 0x95, 0xd7, 0x78, 0xc3, 0x5f, 0xc5,
     0xff, 0x16, 0x97, 0xc4, 0x93, 0x71, 0x56, 0x53, 0xc6, 0xc7, 0x12, 0x14, 0x42, 0x92, 0xc5, 0xad]

/-- R179: CTEQ returns `01` for equal byte strings and `00` for any others, and writes the verdict
to EQ; over capacity it writes no EQ. -/
def Obligations.CteqResult : Prop :=
  ∀ (a b : List Byte) (s : State),
    encode (.cteq a b) = 0x32 :: (enc32 a.length ++ a ++ (enc32 b.length ++ b)) ∧
    (a.length ≤ s.cfg.maxData + 82 → b.length ≤ s.cfg.maxData + 82 →
      (a = b → exec (.cteq a b) s = .next ({ s with eq := true }.answered .ok (okPacket [0x01]))) ∧
      (a ≠ b → exec (.cteq a b) s = .next ({ s with eq := false }.answered .ok (okPacket [0x00])))) ∧
    (s.cfg.maxData + 82 < a.length ∨ s.cfg.maxData + 82 < b.length →
      exec (.cteq a b) s = .next (s.answered .inputSize (errPacket 0x04)))

/-! ## Errors -/

/-- R255: when ERR_INPUT_SIZE is raised, over all commands; it records nothing but the code. -/
def Obligations.InputSizeErrorExactlyWhenDue : Prop :=
  ∀ (i : Instr) (s : State), i ≠ .getStatus →
    ∃ t, exec i s = .next t ∧ (t.lasterr = .inputSize ↔ dueInputSize s.cfg i) ∧
      (t.lasterr = .inputSize → t.rsp = s.rsp ++ [errPacket 0x04] ∧ t.eq = s.eq ∧ t.draws = s.draws)

/-- R260: when ERR_SEQUENCE is raised, over all commands; the context is not touched. -/
def Obligations.SequenceErrorExactlyWhenDue : Prop :=
  ∀ (i : Instr) (s : State), i ≠ .getStatus →
    ∃ t, exec i s = .next t ∧ (t.lasterr = .sequence ↔ dueSequence s i) ∧
      (t.lasterr = .sequence → s.SameCtx t)

/-- R256, R259: when ERR_SHORT_INPUT and ERR_FORMAT are raised, over all commands: the length before
the content, and whatever the password and the keys. -/
def Obligations.HeaderErrorsExactlyWhenDue : Prop :=
  ∀ (i : Instr) (s : State), i ≠ .getStatus →
    ∃ t, exec i s = .next t ∧ (t.lasterr = .shortInput ↔ dueShortInput s.cfg i) ∧
      (t.lasterr = .format ↔ dueFormat s.cfg i)

/-- R254: when ERR_NO_TAG is raised, over all commands: never by DECRYPT_MSG, and never by a DECRYPT
of the message its context was built from. -/
def Obligations.NoTagErrorExactlyWhenDue : Prop :=
  (∀ (i : Instr) (s : State), i ≠ .getStatus →
    ∃ t, exec i s = .next t ∧ (t.lasterr = .noTag ↔ dueNoTag s i)) ∧
  (∀ (pw m : List Byte) (s t : State), exec (.decBuildPw pw m) s = .next t → t.lasterr = .ok →
    ∃ u, exec (.decrypt m) t = .next u ∧ u.lasterr ≠ .noTag) ∧
  (∀ (ek hk : Bytes 32) (m : List Byte) (s t : State),
    exec (.decBuildKeys ek hk m) s = .next t → t.lasterr = .ok →
    ∃ u, exec (.decrypt m) t = .next u ∧ u.lasterr ≠ .noTag)

/-- R257: when ERR_RNG is raised, over all commands; the first failing draw ends the command, the
context is empty and no message is sent; no other command draws. -/
def Obligations.RngErrorExactlyWhenDue : Prop :=
  ∀ (i : Instr) (s : State), i ≠ .getStatus →
    ∃ t, exec i s = .next t ∧ (t.lasterr = .rng ↔ dueRng s i) ∧
      (t.lasterr = .rng → t.CtxEmpty ∧ t.rsp = s.rsp ++ [errPacket 0x06] ∧
        ∃ k, k < 3 ∧ s.answer k = .fail ∧ (∀ j, j < k → s.answer j ≠ .fail) ∧
          t.draws = s.draws + (k + 1)) ∧
      ((∀ pw pt, i ≠ .encryptMsg pw pt) → t.rng = s.rng ∧ t.draws = s.draws)

/-- R253, R258, R286: when ERR_HMAC and ERR_UNPAD are raised, over all commands: the tag decides
first, and ERR_UNPAD is reachable only behind a matching tag. EQ is 0 after the one and 1 after the
other, and neither returns a byte. -/
def Obligations.TagAndPaddingErrorsExactlyWhenDue : Prop :=
  ∀ (i : Instr) (s : State), i ≠ .getStatus →
    ∃ t, exec i s = .next t ∧
      (t.lasterr = .hmac ↔ ∃ hk signed ek v ct tag, reachesTag s i hk signed ek v ct tag ∧
        tag ≠ hmacSha256 hk.val signed) ∧
      (t.lasterr = .unpad ↔ ∃ hk signed ek v ct tag, reachesTag s i hk signed ek v ct tag ∧
        tag = hmacSha256 hk.val signed ∧ decryptBody ek v ct = none) ∧
      (t.lasterr = .hmac → t.eq = false ∧ t.rsp = s.rsp ++ [errPacket 0x02]) ∧
      (t.lasterr = .unpad → t.eq = true ∧ t.rsp = s.rsp ++ [errPacket 0x07])

/-- R252, R262: no packet, legal or not, raises ERR_TAG_GEN or produces a code above 10, in LASTERR or
in the first byte of its response. -/
def Obligations.TagGenAndReservedCodesNeverProduced : Prop :=
  ∀ (s : State) (p : List Byte) (rest : List HostEvent), s.inputs = .packet p :: rest →
    ∃ (t : State) (code : Byte) (body : List Byte),
      step s = .next t ∧ t.rsp = s.rsp ++ [code :: body] ∧ code ≠ 1 ∧ code.toNat ≤ 10 ∧
      t.lasterr.code ≤ 10 ∧
      (decode p ≠ .ok .getStatus → t.lasterr ≠ .tagGen ∧ t.lasterr.code = code.toNat)

/-- R267: the state after each error, in full: builds and one-shots leave an empty context, the other
commands and an undecodable packet the context as it was; EQ changes only at a comparison that was
reached; the response is the code and four zero bytes; the next packet is served as ever. -/
def Obligations.StateAfterAnError : Prop :=
  (∀ (i : Instr) (s : State), i ≠ .getStatus →
    ∃ t, exec i s = .next t ∧
      (t.lasterr ≠ .ok →
        t.rsp = s.rsp ++ [errPacket (BitVec.ofNat 8 t.lasterr.code)] ∧ t.inputs = s.inputs ∧
        match i with
        | .encBuildPw _ _ _ _ | .encBuildKeys _ _ _ | .encryptMsg _ _
        | .decBuildPw _ _ | .decBuildKeys _ _ _ => t.CtxEmpty ∧ t.eq = s.eq
        | .decryptMsg _ _ => t.CtxEmpty ∧
          t.eq = if t.lasterr = .hmac then false else if t.lasterr = .unpad then true else s.eq
        | .decrypt _ => s.SameCtx t ∧
          t.eq = if t.lasterr = .hmac then false else if t.lasterr = .unpad then true else s.eq
        | _ => s.SameCtx t ∧ t.eq = s.eq)) ∧
  (∀ (s : State) (p : List Byte) (rest : List HostEvent) (why : Illegal),
    s.inputs = .packet p :: rest → decode p = .error why →
    ∃ t, step s = .next t ∧ t.lasterr = .illegalCmd ∧ t.rsp = s.rsp ++ [errPacket 0x0a] ∧
      t.inputs = rest ∧ s.SameCtx t ∧ t.eq = s.eq)

/-! ## The functions -/

/-- R176: CtEq is true exactly when its inputs are the same byte string; never for unequal lengths. -/
def Obligations.ComparatorIsEquality : Prop :=
  ∀ a b : List Byte, (ctEq a b = true ↔ a = b) ∧ (a.length ≠ b.length → ctEq a b = false)

/-- R143: Pad adds 1 to 16 bytes, each holding their number, and makes a whole number of blocks. -/
def Obligations.PadAddsItsOwnCount : Prop :=
  ∀ p : List Byte, ∃ n, 1 ≤ n ∧ n ≤ 16 ∧ n = 16 - p.length % 16 ∧
    pad p = p ++ List.replicate n (BitVec.ofNat 8 n) ∧ (pad p).length = 16 * (p.length / 16 + 1)

/-- R144: Unpad accepts the image of Pad and nothing else. -/
def Obligations.UnpadAcceptsExactlyPad : Prop :=
  ∀ s p : List Byte, unpad s = some p ↔ s = pad p

/-- R131: BlockDec undoes BlockEnc, for every key and block. -/
def Obligations.BlockDecUndoesBlockEnc : Prop :=
  ∀ (key : Bytes 32) (b : Bytes 16), blockDec key (blockEnc key b) = b

/-- R146: DecryptBody undoes EncryptBody on every plaintext, the empty one too. -/
def Obligations.DecryptBodyUndoesEncryptBody : Prop :=
  ∀ (key : Bytes 32) (v : Bytes 16) (pt : List Byte),
    decryptBody key v (encryptBody key v pt) = some pt

/-- R148: the length of a ciphertext. -/
def Obligations.CiphertextLength : Prop :=
  ∀ (key : Bytes 32) (v : Bytes 16) (pt : List Byte),
    (encryptBody key v pt).length = 16 * (pt.length / 16 + 1) ∧
    (encryptBody key v pt).length ≠ 0 ∧ (encryptBody key v pt).length % 16 = 0 ∧
    pt.length + 1 ≤ (encryptBody key v pt).length ∧ (encryptBody key v pt).length ≤ pt.length + 16 ∧
    (encryptBody key v []).length = 16

/-! ## Whole sequences -/

/-- R222: what ENCRYPT_MSG returns, DECRYPT_MSG with the same password opens, in any engine of the
same capacities and whatever the draws. -/
def Obligations.OneShotRoundTrip : Prop :=
  ∀ (pw pt : List Byte) (s : State) (b0 b1 b2 : Bytes 16),
    1 ≤ pw.length → pw.length ≤ s.cfg.maxPw → pt.length ≤ s.cfg.maxData →
    s.answer 0 = .ok b0 → s.answer 1 = .ok b1 → s.answer 2 = .ok b2 →
    ∃ t m, exec (.encryptMsg pw pt) s = .next t ∧ t.rsp = s.rsp ++ [okPacket m] ∧
      ∀ u : State, u.cfg = s.cfg → ∃ w, exec (.decryptMsg pw m) u = .next w ∧
        w.rsp = u.rsp ++ [okPacket pt] ∧ w.lasterr = .ok

/-- R222: build, encrypt, build, decrypt returns the plaintext, in password mode and in key-pair
mode, the Decryptor in any engine of the same capacities. -/
def Obligations.TwoStepRoundTrip : Prop :=
  (∀ (pw pt : List Byte) (es hs : Bytes 8) (v : Bytes 16) (s u : State),
    1 ≤ pw.length → pw.length ≤ s.cfg.maxPw → pt.length ≤ s.cfg.maxData → u.cfg = s.cfg →
    ∃ s1 s2 m u1 u2, exec (.encBuildPw pw es hs v) s = .next s1 ∧ exec (.encrypt pt) s1 = .next s2 ∧
      s2.rsp = s1.rsp ++ [okPacket m] ∧ exec (.decBuildPw pw m) u = .next u1 ∧
      exec (.decrypt m) u1 = .next u2 ∧ u2.rsp = u1.rsp ++ [okPacket pt]) ∧
  (∀ (ek hk : Bytes 32) (pt : List Byte) (v : Bytes 16) (s u : State),
    pt.length ≤ s.cfg.maxData → u.cfg = s.cfg →
    ∃ s1 s2 m u1 u2, exec (.encBuildKeys ek hk v) s = .next s1 ∧ exec (.encrypt pt) s1 = .next s2 ∧
      s2.rsp = s1.rsp ++ [okPacket m] ∧ exec (.decBuildKeys ek hk m) u = .next u1 ∧
      exec (.decrypt m) u1 = .next u2 ∧ u2.rsp = u1.rsp ++ [okPacket pt])

/-- R223, the part that needs no assumption: in a message of a password context, a changed version
or mode byte gives ERR_FORMAT and a changed tag byte gives ERR_HMAC, with certainty. -/
def Obligations.CertainTamperDetection : Prop :=
  ∀ (pw pt : List Byte) (es hs : Bytes 8) (v : Bytes 16) (s u : State) (b : Byte),
    pw.length ≤ u.cfg.maxPw → pt.length ≤ u.cfg.maxData →
    (b ≠ 0x03 → exec (.decryptMsg pw (((s.loadPassword .enc pw es hs v).message pt).set 0 b)) u =
      .next (u.zeroCtx.answered .format (errPacket 0x08))) ∧
    (b ≠ 0x01 → exec (.decryptMsg pw (((s.loadPassword .enc pw es hs v).message pt).set 1 b)) u =
      .next (u.zeroCtx.answered .format (errPacket 0x08))) ∧
    (∀ k, 34 + 16 * (pt.length / 16 + 1) ≤ k → k < 34 + 16 * (pt.length / 16 + 1) + 32 →
      ((s.loadPassword .enc pw es hs v).message pt).getD k 0 ≠ b →
      exec (.decryptMsg pw (((s.loadPassword .enc pw es hs v).message pt).set k b)) u =
        .next ({ u.zeroCtx with eq := false }.answered .hmac (errPacket 0x02)))

/-- R283: two ENCRYPT on one context with plaintexts that share their first k blocks return messages
that share everything up to the end of those k ciphertext blocks. -/
def Obligations.IvReuseRepeatsCiphertextBlocks : Prop :=
  ∀ (p q : List Byte) (k : Nat) (s : State), s.ctx = .enc →
    p.length ≤ s.cfg.maxData → q.length ≤ s.cfg.maxData → 16 * k ≤ p.length → 16 * k ≤ q.length →
    p.take (16 * k) = q.take (16 * k) →
    ∃ m n, exec (.encrypt p) s = .next (s.answered .ok (okPacket m)) ∧
      exec (.encrypt q) s = .next (s.answered .ok (okPacket n)) ∧
      m.take (hdrLen s.mode + 16 * k) = n.take (hdrLen s.mode + 16 * k)
end

