-- ==== Sys2Proof/Laws/Bytes.lean ====
section
/-! SUPPORT. Lengths and round trips of the byte-string operations and of the hashes. -/

namespace Sys2Proof

@[simp] theorem Bytes.length_val {n : Nat} (b : Bytes n) : b.val.length = n := b.property

@[simp] theorem enc32_length (n : Nat) : (enc32 n).length = 4 := rfl

@[simp] theorem enc64_length (n : Nat) : (enc64 n).length = 8 := rfl

theorem be32_lt (b0 b1 b2 b3 : Byte) : be32 b0 b1 b2 b3 < 2 ^ 32 := by
  have h0 := b0.isLt
  have h1 := b1.isLt
  have h2 := b2.isLt
  have h3 := b3.isLt
  unfold be32
  omega

/-- `enc32` gives back the bytes `be32` read. -/
theorem enc32_be32 (b0 b1 b2 b3 : Byte) : enc32 (be32 b0 b1 b2 b3) = [b0, b1, b2, b3] := by
  have h0 := b0.isLt
  have h1 := b1.isLt
  have h2 := b2.isLt
  have h3 := b3.isLt
  simp only [enc32, be32, List.cons.injEq, and_true]
  refine ⟨?_, ?_, ?_, ?_⟩ <;> apply BitVec.eq_of_toNat_eq <;> simp only [BitVec.toNat_ofNat] <;> omega

/-- `be32` gives back the number `enc32` wrote, below 2^32. -/
theorem be32_enc32 {n : Nat} (h : n < 2 ^ 32) :
    be32 (BitVec.ofNat 8 (n / 2 ^ 24)) (BitVec.ofNat 8 (n / 2 ^ 16)) (BitVec.ofNat 8 (n / 2 ^ 8))
      (BitVec.ofNat 8 n) = n := by
  simp only [be32, BitVec.toNat_ofNat]
  omega

/-- A byte string that already has `n` bytes is kept as it is. -/
theorem Bytes.fit_val {n : Nat} {b : List Byte} (h : b.length = n) : (Bytes.fit n b).val = b := by
  subst h
  apply List.ext_getElem <;> simp +contextual [Bytes.fit]

@[simp] theorem Bytes.fit_self {n : Nat} (b : Bytes n) : Bytes.fit n b.val = b :=
  Subtype.ext (Bytes.fit_val b.property)

theorem slice_length {m : List Byte} {i j : Nat} (h : j ≤ m.length) :
    (slice m i j).length = j - i := by
  simp only [slice, List.length_take, List.length_drop]
  omega

@[simp] theorem xorBytes_length (a b : List Byte) :
    (xorBytes a b).length = min a.length b.length := by
  simp [xorBytes]

@[simp] theorem chunks_length (n k : Nat) (b : List Byte) : (chunks n k b).length = k := by
  induction k generalizing b with
  | zero => rfl
  | succ k ih => simp [chunks, ih]

@[simp] theorem wordBytes_length (w : Word32) : (wordBytes w).length = 4 := rfl

@[simp] theorem sha1_length (m : List Byte) : (sha1 m).length = 20 := rfl

@[simp] theorem sha256_length (m : List Byte) : (sha256 m).length = 32 := rfl

@[simp] theorem hmacSha1_length (k m : List Byte) : (hmacSha1 k m).length = 20 := rfl

@[simp] theorem hmacSha256_length (k m : List Byte) : (hmacSha256 k m).length = 32 := rfl

@[simp] theorem macTag_length (k : Bytes 32) (h c : List Byte) : (macTag k h c).length = 32 := rfl

theorem pbkdf2Iterate_length (pw : List Byte) (n : Nat) (u t : List Byte) (h : t.length = 20) :
    (pbkdf2Iterate pw n u t).length = 20 := by
  induction n generalizing u t with
  | zero => exact h
  | succ n ih => exact ih _ _ (by simp [h])

@[simp] theorem pbkdf2Block_length (pw salt : List Byte) (c i : Nat) :
    (pbkdf2Block pw salt c i).length = 20 :=
  pbkdf2Iterate_length _ _ _ _ (by simp)

@[simp] theorem pbkdf2_length (pw salt : List Byte) (c : Nat) : (pbkdf2 pw salt c).length = 32 := by
  simp [pbkdf2]

/-- The iteration count (R6). -/
theorem kdfIter_eq : kdfIter = 10000 := by
  delta kdfIter
  rfl

/-- `Kdf` is PBKDF2's 32 bytes, none cut off and none added (R100, R106). -/
theorem kdf_val (pw : List Byte) (salt : Bytes 8) :
    (kdf pw salt).val = pbkdf2 pw salt.val kdfIter := by
  unfold kdf
  exact Bytes.fit_val (pbkdf2_length _ _ _)

end Sys2Proof
end

