-- ==== Sys2Proof/Laws/Aes.lean ====
section
/-! SUPPORT. The building blocks of the cipher and their inverses; lengths in the chaining. -/

namespace Sys2Proof

/-! ## The field -/

theorem xtime_xor (a b : Byte) : xtime (a ^^^ b) = xtime a ^^^ xtime b := by
  unfold xtime
  rw [BitVec.msb_xor, BitVec.shiftLeft_xor_distrib]
  cases a.msb <;> cases b.msb <;> simp <;> ac_nf
  simp

theorem gmulBits_xor (n : Nat) (a b c : Byte) :
    gmulBits n (a ^^^ b) c = gmulBits n a c ^^^ gmulBits n b c := by
  induction n generalizing a b c with
  | zero => simp [gmulBits]
  | succ n ih =>
    simp only [gmulBits, xtime_xor, ih]
    cases c.getLsbD 0
    · simp
    · simp only [if_true]
      ac_rfl

/-- Multiplication distributes over the field's addition (R132). -/
theorem gmul_xor (a b c : Byte) : gmul (a ^^^ b) c = gmul a c ^^^ gmul b c := gmulBits_xor 8 a b c

/-! ## Each transformation and its inverse -/

@[simp] theorem invSbox_sbox (a : Byte) : invSbox (sbox a) = a := by
  revert a
  decide +kernel

theorem Col.xor_cancel (x k : Col) : (x.xor k).xor k = x := by
  cases x
  cases k
  simp [Col.xor]

@[simp] theorem addRoundKey_cancel (s k : AesState) : addRoundKey (addRoundKey s k) k = s := by
  cases s
  simp [addRoundKey, Col.xor_cancel]

@[simp] theorem invShiftRows_shiftRows (s : AesState) : invShiftRows (shiftRows s) = s := rfl

@[simp] theorem invSubBytes_subBytes (s : AesState) : invSubBytes (subBytes s) = s := by
  rcases s with ⟨⟨⟩, ⟨⟩, ⟨⟩, ⟨⟩⟩
  simp [invSubBytes, subBytes, AesState.mapCols, Col.map]

/-- What a byte contributes to its own row when a column is mixed and unmixed. -/
theorem unmix_own (x : Byte) :
    gmul (gmul x 2) 0x0e ^^^ gmul x 0x0b ^^^ gmul x 0x0d ^^^ gmul (gmul x 3) 0x09 = x := by
  revert x
  decide +kernel

/-- What a byte contributes to the row above its own: nothing. -/
theorem unmix_above (x : Byte) :
    gmul (gmul x 3) 0x0e ^^^ gmul (gmul x 2) 0x0b ^^^ gmul x 0x0d ^^^ gmul x 0x09 = 0 := by
  revert x
  decide +kernel

/-- What a byte contributes to the opposite row: nothing. -/
theorem unmix_opposite (x : Byte) :
    gmul x 0x0e ^^^ gmul (gmul x 3) 0x0b ^^^ gmul (gmul x 2) 0x0d ^^^ gmul x 0x09 = 0 := by
  revert x
  decide +kernel

/-- What a byte contributes to the row below its own: nothing. -/
theorem unmix_below (x : Byte) :
    gmul x 0x0e ^^^ gmul x 0x0b ^^^ gmul (gmul x 3) 0x0d ^^^ gmul (gmul x 2) 0x09 = 0 := by
  revert x
  decide +kernel

/-- One row of the unmixed column, its sixteen terms gathered by the byte they come from. -/
theorem unmix_row (a b c d : Byte) :
    gmul (gmul a 2 ^^^ gmul b 3 ^^^ c ^^^ d) 0x0e ^^^ gmul (a ^^^ gmul b 2 ^^^ gmul c 3 ^^^ d) 0x0b ^^^
      gmul (a ^^^ b ^^^ gmul c 2 ^^^ gmul d 3) 0x0d ^^^ gmul (gmul a 3 ^^^ b ^^^ c ^^^ gmul d 2) 0x09 = a := by
  simp only [gmul_xor]
  calc
    _ = (gmul (gmul a 2) 0x0e ^^^ gmul a 0x0b ^^^ gmul a 0x0d ^^^ gmul (gmul a 3) 0x09) ^^^
        (gmul (gmul b 3) 0x0e ^^^ gmul (gmul b 2) 0x0b ^^^ gmul b 0x0d ^^^ gmul b 0x09) ^^^
        (gmul c 0x0e ^^^ gmul (gmul c 3) 0x0b ^^^ gmul (gmul c 2) 0x0d ^^^ gmul c 0x09) ^^^
        (gmul d 0x0e ^^^ gmul d 0x0b ^^^ gmul (gmul d 3) 0x0d ^^^ gmul (gmul d 2) 0x09) := by ac_rfl
    _ = a := by
      rw [unmix_own, unmix_above, unmix_opposite, unmix_below]
      simp

@[simp] theorem invMixCol_mixCol (x : Col) : invMixCol (mixCol x) = x := by
  obtain ⟨a, b, c, d⟩ := x
  simp only [invMixCol, mixCol, Col.mk.injEq]
  refine ⟨?_, ?_, ?_, ?_⟩
  · exact unmix_row a b c d
  · refine Eq.trans ?_ (unmix_row b c d a)
    ac_nf
  · refine Eq.trans ?_ (unmix_row c d a b)
    ac_nf
  · refine Eq.trans ?_ (unmix_row d a b c)
    ac_nf

@[simp] theorem invMixColumns_mixColumns (s : AesState) : invMixColumns (mixColumns s) = s := by
  cases s
  simp [invMixColumns, mixColumns, AesState.mapCols]

@[simp] theorem AesState.ofBlock_toBlock (s : AesState) : AesState.ofBlock s.toBlock = s := rfl

@[simp] theorem AesState.toBlock_ofBlock (b : Bytes 16) : (AesState.ofBlock b).toBlock = b := by
  obtain ⟨l, h⟩ := b
  match l, h with
  | [_, _, _, _, _, _, _, _, _, _, _, _, _, _, _, _], _ => rfl

/-- An inverse round undoes the round before it, seen through the row shift and the substitution
that follow it (R138, R140). -/
theorem decRound_encRound (s k : AesState) :
    decRound (shiftRows (subBytes (encRound s k))) k = shiftRows (subBytes s) := by
  simp [decRound, encRound]

/-! ## Chaining -/

@[simp] theorem xorBlock_cancel (x y : Bytes 16) : xorBlock (xorBlock x y) y = x := by
  apply Subtype.ext
  have hl : x.val.length = y.val.length := by simp
  simp only [xorBlock, xorBytes]
  revert hl
  generalize x.val = a
  generalize y.val = b
  intro hl
  induction a generalizing b with
  | nil => rfl
  | cons p a ih =>
    cases b with
    | nil => cases hl
    | cons q b => simp [ih b (by simpa using hl)]

@[simp] theorem cbcEncBlocks_length (key : Bytes 32) (prev : Bytes 16) (ps : List (Bytes 16)) :
    (cbcEncBlocks key prev ps).length = ps.length := by
  induction ps generalizing prev with
  | nil => rfl
  | cons p ps ih => simp [cbcEncBlocks, ih]

@[simp] theorem cbcDecBlocks_length (key : Bytes 32) (prev : Bytes 16) (cs : List (Bytes 16)) :
    (cbcDecBlocks key prev cs).length = cs.length := by
  induction cs generalizing prev with
  | nil => rfl
  | cons c cs ih => simp [cbcDecBlocks, ih]

@[simp] theorem blocks16_length (b : List Byte) : (blocks16 b).length = b.length / 16 := by
  simp [blocks16]

@[simp] theorem joinBlocks_length (bs : List (Bytes 16)) : (joinBlocks bs).length = 16 * bs.length := by
  induction bs with
  | nil => rfl
  | cons b bs ih =>
    have : joinBlocks (b :: bs) = b.val ++ joinBlocks bs := rfl
    simp only [this, List.length_append, Bytes.length_val, ih, List.length_cons]
    omega

theorem blocks16_cons (b : Bytes 16) (rest : List Byte) :
    blocks16 (b.val ++ rest) = b :: blocks16 rest := by
  have h : (b.val ++ rest).length / 16 = rest.length / 16 + 1 := by
    simp only [List.length_append, Bytes.length_val]
    omega
  simp only [blocks16, h, chunks, List.map_cons]
  congr 1
  · apply Subtype.ext
    rw [Bytes.fit_val (by simp)]
    simp
  · congr 2
    simp

/-- Cutting joined blocks gives the blocks back. -/
@[simp] theorem blocks16_joinBlocks (bs : List (Bytes 16)) : blocks16 (joinBlocks bs) = bs := by
  induction bs with
  | nil => rfl
  | cons b bs ih =>
    have : joinBlocks (b :: bs) = b.val ++ joinBlocks bs := rfl
    rw [this, blocks16_cons, ih]

/-- Joining the blocks of a whole number of blocks gives the byte string back. -/
theorem joinBlocks_blocks16 {b : List Byte} (h : b.length % 16 = 0) : joinBlocks (blocks16 b) = b := by
  obtain ⟨k, hk⟩ : ∃ k, b.length = 16 * k := ⟨b.length / 16, by omega⟩
  clear h
  induction k generalizing b with
  | zero =>
    have : b = [] := List.length_eq_zero_iff.mp (by omega)
    subst this
    rfl
  | succ k ih =>
    have hb : b = (Bytes.fit 16 (b.take 16)).val ++ b.drop 16 := by
      rw [Bytes.fit_val (by simp; omega), List.take_append_drop]
    have hd : (b.drop 16).length = 16 * k := by simp; omega
    rw [hb, blocks16_cons]
    show (Bytes.fit 16 (b.take 16)).val ++ joinBlocks (blocks16 (b.drop 16)) = _
    rw [ih hd]

theorem pad_length (p : List Byte) : (pad p).length = 16 * (p.length / 16 + 1) := by
  simp only [pad, List.length_append, List.length_replicate]
  omega

/-- The source's two cases are one: the empty plaintext too is padded (R145). -/
theorem encryptBody_eq (key : Bytes 32) (iv : Bytes 16) (pt : List Byte) :
    encryptBody key iv pt = cbcEnc key iv (pad pt) := by
  unfold encryptBody
  split
  · rfl
  · rename_i h
    have : pt = [] := by
      rw [ne_eq, not_not] at h
      exact List.length_eq_zero_iff.mp h
    subst this
    rfl

end Sys2Proof
end

