-- ==== Sys2Proof/Laws/State.lean ====
section
/-! SUPPORT. What each update of the state leaves in each field: one lemma per field and update, so
that no later proof unfolds a record update. -/

namespace Sys2Proof.Machine

/-! ## zeroCtx -/

@[simp] theorem State.zeroCtx_esalt (s : State) : (s.zeroCtx).esalt = Bytes.zero 8 := rfl
@[simp] theorem State.zeroCtx_hsalt (s : State) : (s.zeroCtx).hsalt = Bytes.zero 8 := rfl
@[simp] theorem State.zeroCtx_iv (s : State) : (s.zeroCtx).iv = Bytes.zero 16 := rfl
@[simp] theorem State.zeroCtx_ekey (s : State) : (s.zeroCtx).ekey = Bytes.zero 32 := rfl
@[simp] theorem State.zeroCtx_hkey (s : State) : (s.zeroCtx).hkey = Bytes.zero 32 := rfl
@[simp] theorem State.zeroCtx_ctx (s : State) : (s.zeroCtx).ctx = .none := rfl
@[simp] theorem State.zeroCtx_mode (s : State) : (s.zeroCtx).mode = .keys := rfl
@[simp] theorem State.zeroCtx_eq (s : State) : (s.zeroCtx).eq = s.eq := rfl
@[simp] theorem State.zeroCtx_lasterr (s : State) : (s.zeroCtx).lasterr = s.lasterr := rfl
@[simp] theorem State.zeroCtx_cfg (s : State) : (s.zeroCtx).cfg = s.cfg := rfl
@[simp] theorem State.zeroCtx_inputs (s : State) : (s.zeroCtx).inputs = s.inputs := rfl
@[simp] theorem State.zeroCtx_rsp (s : State) : (s.zeroCtx).rsp = s.rsp := rfl
@[simp] theorem State.zeroCtx_rng (s : State) : (s.zeroCtx).rng = s.rng := rfl
@[simp] theorem State.zeroCtx_draws (s : State) : (s.zeroCtx).draws = s.draws := rfl

/-! ## loadCtx -/

@[simp] theorem State.loadCtx_esalt (s : State) (c : Ctx) (m : Mode) (es hs : Bytes 8) (v : Bytes 16) (ek hk : Bytes 32) : (s.loadCtx c m es hs v ek hk).esalt = es := rfl
@[simp] theorem State.loadCtx_hsalt (s : State) (c : Ctx) (m : Mode) (es hs : Bytes 8) (v : Bytes 16) (ek hk : Bytes 32) : (s.loadCtx c m es hs v ek hk).hsalt = hs := rfl
@[simp] theorem State.loadCtx_iv (s : State) (c : Ctx) (m : Mode) (es hs : Bytes 8) (v : Bytes 16) (ek hk : Bytes 32) : (s.loadCtx c m es hs v ek hk).iv = v := rfl
@[simp] theorem State.loadCtx_ekey (s : State) (c : Ctx) (m : Mode) (es hs : Bytes 8) (v : Bytes 16) (ek hk : Bytes 32) : (s.loadCtx c m es hs v ek hk).ekey = ek := rfl
@[simp] theorem State.loadCtx_hkey (s : State) (c : Ctx) (m : Mode) (es hs : Bytes 8) (v : Bytes 16) (ek hk : Bytes 32) : (s.loadCtx c m es hs v ek hk).hkey = hk := rfl
@[simp] theorem State.loadCtx_ctx (s : State) (c : Ctx) (m : Mode) (es hs : Bytes 8) (v : Bytes 16) (ek hk : Bytes 32) : (s.loadCtx c m es hs v ek hk).ctx = c := rfl
@[simp] theorem State.loadCtx_mode (s : State) (c : Ctx) (m : Mode) (es hs : Bytes 8) (v : Bytes 16) (ek hk : Bytes 32) : (s.loadCtx c m es hs v ek hk).mode = m := rfl
@[simp] theorem State.loadCtx_eq (s : State) (c : Ctx) (m : Mode) (es hs : Bytes 8) (v : Bytes 16) (ek hk : Bytes 32) : (s.loadCtx c m es hs v ek hk).eq = s.eq := rfl
@[simp] theorem State.loadCtx_lasterr (s : State) (c : Ctx) (m : Mode) (es hs : Bytes 8) (v : Bytes 16) (ek hk : Bytes 32) : (s.loadCtx c m es hs v ek hk).lasterr = s.lasterr := rfl
@[simp] theorem State.loadCtx_cfg (s : State) (c : Ctx) (m : Mode) (es hs : Bytes 8) (v : Bytes 16) (ek hk : Bytes 32) : (s.loadCtx c m es hs v ek hk).cfg = s.cfg := rfl
@[simp] theorem State.loadCtx_inputs (s : State) (c : Ctx) (m : Mode) (es hs : Bytes 8) (v : Bytes 16) (ek hk : Bytes 32) : (s.loadCtx c m es hs v ek hk).inputs = s.inputs := rfl
@[simp] theorem State.loadCtx_rsp (s : State) (c : Ctx) (m : Mode) (es hs : Bytes 8) (v : Bytes 16) (ek hk : Bytes 32) : (s.loadCtx c m es hs v ek hk).rsp = s.rsp := rfl
@[simp] theorem State.loadCtx_rng (s : State) (c : Ctx) (m : Mode) (es hs : Bytes 8) (v : Bytes 16) (ek hk : Bytes 32) : (s.loadCtx c m es hs v ek hk).rng = s.rng := rfl
@[simp] theorem State.loadCtx_draws (s : State) (c : Ctx) (m : Mode) (es hs : Bytes 8) (v : Bytes 16) (ek hk : Bytes 32) : (s.loadCtx c m es hs v ek hk).draws = s.draws := rfl

/-! ## loadPassword -/

@[simp] theorem State.loadPassword_esalt (s : State) (c : Ctx) (pw : List Byte) (es hs : Bytes 8) (v : Bytes 16) : (s.loadPassword c pw es hs v).esalt = es := rfl
@[simp] theorem State.loadPassword_hsalt (s : State) (c : Ctx) (pw : List Byte) (es hs : Bytes 8) (v : Bytes 16) : (s.loadPassword c pw es hs v).hsalt = hs := rfl
@[simp] theorem State.loadPassword_iv (s : State) (c : Ctx) (pw : List Byte) (es hs : Bytes 8) (v : Bytes 16) : (s.loadPassword c pw es hs v).iv = v := rfl
@[simp] theorem State.loadPassword_ekey (s : State) (c : Ctx) (pw : List Byte) (es hs : Bytes 8) (v : Bytes 16) : (s.loadPassword c pw es hs v).ekey = kdf pw es := rfl
@[simp] theorem State.loadPassword_hkey (s : State) (c : Ctx) (pw : List Byte) (es hs : Bytes 8) (v : Bytes 16) : (s.loadPassword c pw es hs v).hkey = kdf pw hs := rfl
@[simp] theorem State.loadPassword_ctx (s : State) (c : Ctx) (pw : List Byte) (es hs : Bytes 8) (v : Bytes 16) : (s.loadPassword c pw es hs v).ctx = c := rfl
@[simp] theorem State.loadPassword_mode (s : State) (c : Ctx) (pw : List Byte) (es hs : Bytes 8) (v : Bytes 16) : (s.loadPassword c pw es hs v).mode = .password := rfl
@[simp] theorem State.loadPassword_eq (s : State) (c : Ctx) (pw : List Byte) (es hs : Bytes 8) (v : Bytes 16) : (s.loadPassword c pw es hs v).eq = s.eq := rfl
@[simp] theorem State.loadPassword_lasterr (s : State) (c : Ctx) (pw : List Byte) (es hs : Bytes 8) (v : Bytes 16) : (s.loadPassword c pw es hs v).lasterr = s.lasterr := rfl
@[simp] theorem State.loadPassword_cfg (s : State) (c : Ctx) (pw : List Byte) (es hs : Bytes 8) (v : Bytes 16) : (s.loadPassword c pw es hs v).cfg = s.cfg := rfl
@[simp] theorem State.loadPassword_inputs (s : State) (c : Ctx) (pw : List Byte) (es hs : Bytes 8) (v : Bytes 16) : (s.loadPassword c pw es hs v).inputs = s.inputs := rfl
@[simp] theorem State.loadPassword_rsp (s : State) (c : Ctx) (pw : List Byte) (es hs : Bytes 8) (v : Bytes 16) : (s.loadPassword c pw es hs v).rsp = s.rsp := rfl
@[simp] theorem State.loadPassword_rng (s : State) (c : Ctx) (pw : List Byte) (es hs : Bytes 8) (v : Bytes 16) : (s.loadPassword c pw es hs v).rng = s.rng := rfl
@[simp] theorem State.loadPassword_draws (s : State) (c : Ctx) (pw : List Byte) (es hs : Bytes 8) (v : Bytes 16) : (s.loadPassword c pw es hs v).draws = s.draws := rfl

/-! ## setEq -/

@[simp] theorem State.setEq_esalt (s : State) (b : Bool) : (s.setEq b).esalt = s.esalt := rfl
@[simp] theorem State.setEq_hsalt (s : State) (b : Bool) : (s.setEq b).hsalt = s.hsalt := rfl
@[simp] theorem State.setEq_iv (s : State) (b : Bool) : (s.setEq b).iv = s.iv := rfl
@[simp] theorem State.setEq_ekey (s : State) (b : Bool) : (s.setEq b).ekey = s.ekey := rfl
@[simp] theorem State.setEq_hkey (s : State) (b : Bool) : (s.setEq b).hkey = s.hkey := rfl
@[simp] theorem State.setEq_ctx (s : State) (b : Bool) : (s.setEq b).ctx = s.ctx := rfl
@[simp] theorem State.setEq_mode (s : State) (b : Bool) : (s.setEq b).mode = s.mode := rfl
@[simp] theorem State.setEq_eq (s : State) (b : Bool) : (s.setEq b).eq = b := rfl
@[simp] theorem State.setEq_lasterr (s : State) (b : Bool) : (s.setEq b).lasterr = s.lasterr := rfl
@[simp] theorem State.setEq_cfg (s : State) (b : Bool) : (s.setEq b).cfg = s.cfg := rfl
@[simp] theorem State.setEq_inputs (s : State) (b : Bool) : (s.setEq b).inputs = s.inputs := rfl
@[simp] theorem State.setEq_rsp (s : State) (b : Bool) : (s.setEq b).rsp = s.rsp := rfl
@[simp] theorem State.setEq_rng (s : State) (b : Bool) : (s.setEq b).rng = s.rng := rfl
@[simp] theorem State.setEq_draws (s : State) (b : Bool) : (s.setEq b).draws = s.draws := rfl

/-! ## emit -/

@[simp] theorem State.emit_esalt (s : State) (st : Status) (p : List Byte) : (s.emit st p).esalt = s.esalt := rfl
@[simp] theorem State.emit_hsalt (s : State) (st : Status) (p : List Byte) : (s.emit st p).hsalt = s.hsalt := rfl
@[simp] theorem State.emit_iv (s : State) (st : Status) (p : List Byte) : (s.emit st p).iv = s.iv := rfl
@[simp] theorem State.emit_ekey (s : State) (st : Status) (p : List Byte) : (s.emit st p).ekey = s.ekey := rfl
@[simp] theorem State.emit_hkey (s : State) (st : Status) (p : List Byte) : (s.emit st p).hkey = s.hkey := rfl
@[simp] theorem State.emit_ctx (s : State) (st : Status) (p : List Byte) : (s.emit st p).ctx = s.ctx := rfl
@[simp] theorem State.emit_mode (s : State) (st : Status) (p : List Byte) : (s.emit st p).mode = s.mode := rfl
@[simp] theorem State.emit_eq (s : State) (st : Status) (p : List Byte) : (s.emit st p).eq = s.eq := rfl
@[simp] theorem State.emit_lasterr (s : State) (st : Status) (p : List Byte) : (s.emit st p).lasterr = s.lasterr := rfl
@[simp] theorem State.emit_cfg (s : State) (st : Status) (p : List Byte) : (s.emit st p).cfg = s.cfg := rfl
@[simp] theorem State.emit_inputs (s : State) (st : Status) (p : List Byte) : (s.emit st p).inputs = s.inputs := rfl
@[simp] theorem State.emit_rsp (s : State) (st : Status) (p : List Byte) : (s.emit st p).rsp = s.rsp ++ [responsePacket st p] := rfl
@[simp] theorem State.emit_rng (s : State) (st : Status) (p : List Byte) : (s.emit st p).rng = s.rng := rfl
@[simp] theorem State.emit_draws (s : State) (st : Status) (p : List Byte) : (s.emit st p).draws = s.draws := rfl

/-! ## returnOk -/

@[simp] theorem State.returnOk_esalt (s : State) (p : List Byte) : (s.returnOk p).esalt = s.esalt := rfl
@[simp] theorem State.returnOk_hsalt (s : State) (p : List Byte) : (s.returnOk p).hsalt = s.hsalt := rfl
@[simp] theorem State.returnOk_iv (s : State) (p : List Byte) : (s.returnOk p).iv = s.iv := rfl
@[simp] theorem State.returnOk_ekey (s : State) (p : List Byte) : (s.returnOk p).ekey = s.ekey := rfl
@[simp] theorem State.returnOk_hkey (s : State) (p : List Byte) : (s.returnOk p).hkey = s.hkey := rfl
@[simp] theorem State.returnOk_ctx (s : State) (p : List Byte) : (s.returnOk p).ctx = s.ctx := rfl
@[simp] theorem State.returnOk_mode (s : State) (p : List Byte) : (s.returnOk p).mode = s.mode := rfl
@[simp] theorem State.returnOk_eq (s : State) (p : List Byte) : (s.returnOk p).eq = s.eq := rfl
@[simp] theorem State.returnOk_lasterr (s : State) (p : List Byte) : (s.returnOk p).lasterr = .ok := rfl
@[simp] theorem State.returnOk_cfg (s : State) (p : List Byte) : (s.returnOk p).cfg = s.cfg := rfl
@[simp] theorem State.returnOk_inputs (s : State) (p : List Byte) : (s.returnOk p).inputs = s.inputs := rfl
@[simp] theorem State.returnOk_rsp (s : State) (p : List Byte) : (s.returnOk p).rsp = s.rsp ++ [responsePacket .ok p] := rfl
@[simp] theorem State.returnOk_rng (s : State) (p : List Byte) : (s.returnOk p).rng = s.rng := rfl
@[simp] theorem State.returnOk_draws (s : State) (p : List Byte) : (s.returnOk p).draws = s.draws := rfl

/-! ## raiseError -/

@[simp] theorem State.raiseError_esalt (s : State) (e : Status) : (s.raiseError e).esalt = s.esalt := rfl
@[simp] theorem State.raiseError_hsalt (s : State) (e : Status) : (s.raiseError e).hsalt = s.hsalt := rfl
@[simp] theorem State.raiseError_iv (s : State) (e : Status) : (s.raiseError e).iv = s.iv := rfl
@[simp] theorem State.raiseError_ekey (s : State) (e : Status) : (s.raiseError e).ekey = s.ekey := rfl
@[simp] theorem State.raiseError_hkey (s : State) (e : Status) : (s.raiseError e).hkey = s.hkey := rfl
@[simp] theorem State.raiseError_ctx (s : State) (e : Status) : (s.raiseError e).ctx = s.ctx := rfl
@[simp] theorem State.raiseError_mode (s : State) (e : Status) : (s.raiseError e).mode = s.mode := rfl
@[simp] theorem State.raiseError_eq (s : State) (e : Status) : (s.raiseError e).eq = s.eq := rfl
@[simp] theorem State.raiseError_lasterr (s : State) (e : Status) : (s.raiseError e).lasterr = e := rfl
@[simp] theorem State.raiseError_cfg (s : State) (e : Status) : (s.raiseError e).cfg = s.cfg := rfl
@[simp] theorem State.raiseError_inputs (s : State) (e : Status) : (s.raiseError e).inputs = s.inputs := rfl
@[simp] theorem State.raiseError_rsp (s : State) (e : Status) : (s.raiseError e).rsp = s.rsp ++ [responsePacket e []] := rfl
@[simp] theorem State.raiseError_rng (s : State) (e : Status) : (s.raiseError e).rng = s.rng := rfl
@[simp] theorem State.raiseError_draws (s : State) (e : Status) : (s.raiseError e).draws = s.draws := rfl

/-! ## drawn -/

@[simp] theorem State.drawn_esalt (s : State) : (s.drawn).esalt = s.esalt := rfl
@[simp] theorem State.drawn_hsalt (s : State) : (s.drawn).hsalt = s.hsalt := rfl
@[simp] theorem State.drawn_iv (s : State) : (s.drawn).iv = s.iv := rfl
@[simp] theorem State.drawn_ekey (s : State) : (s.drawn).ekey = s.ekey := rfl
@[simp] theorem State.drawn_hkey (s : State) : (s.drawn).hkey = s.hkey := rfl
@[simp] theorem State.drawn_ctx (s : State) : (s.drawn).ctx = s.ctx := rfl
@[simp] theorem State.drawn_mode (s : State) : (s.drawn).mode = s.mode := rfl
@[simp] theorem State.drawn_eq (s : State) : (s.drawn).eq = s.eq := rfl
@[simp] theorem State.drawn_lasterr (s : State) : (s.drawn).lasterr = s.lasterr := rfl
@[simp] theorem State.drawn_cfg (s : State) : (s.drawn).cfg = s.cfg := rfl
@[simp] theorem State.drawn_inputs (s : State) : (s.drawn).inputs = s.inputs := rfl
@[simp] theorem State.drawn_rsp (s : State) : (s.drawn).rsp = s.rsp := rfl
@[simp] theorem State.drawn_rng (s : State) : (s.drawn).rng = s.rng.tail := rfl
@[simp] theorem State.drawn_draws (s : State) : (s.drawn).draws = s.draws + 1 := rfl

/-! ## resetEngine -/

@[simp] theorem State.resetEngine_esalt (s : State) : (s.resetEngine).esalt = Bytes.zero 8 := rfl
@[simp] theorem State.resetEngine_hsalt (s : State) : (s.resetEngine).hsalt = Bytes.zero 8 := rfl
@[simp] theorem State.resetEngine_iv (s : State) : (s.resetEngine).iv = Bytes.zero 16 := rfl
@[simp] theorem State.resetEngine_ekey (s : State) : (s.resetEngine).ekey = Bytes.zero 32 := rfl
@[simp] theorem State.resetEngine_hkey (s : State) : (s.resetEngine).hkey = Bytes.zero 32 := rfl
@[simp] theorem State.resetEngine_ctx (s : State) : (s.resetEngine).ctx = .none := rfl
@[simp] theorem State.resetEngine_mode (s : State) : (s.resetEngine).mode = .keys := rfl
@[simp] theorem State.resetEngine_eq (s : State) : (s.resetEngine).eq = false := rfl
@[simp] theorem State.resetEngine_lasterr (s : State) : (s.resetEngine).lasterr = .ok := rfl
@[simp] theorem State.resetEngine_cfg (s : State) : (s.resetEngine).cfg = s.cfg := rfl
@[simp] theorem State.resetEngine_inputs (s : State) : (s.resetEngine).inputs = s.inputs := rfl
@[simp] theorem State.resetEngine_rsp (s : State) : (s.resetEngine).rsp = s.rsp := rfl
@[simp] theorem State.resetEngine_rng (s : State) : (s.resetEngine).rng = s.rng := rfl
@[simp] theorem State.resetEngine_draws (s : State) : (s.resetEngine).draws = s.draws := rfl

/-! ## conclude -/

@[simp] theorem State.conclude_esalt (s : State) (r : CmdEnd) : (s.conclude r).esalt = s.esalt := by cases r <;> rfl
@[simp] theorem State.conclude_hsalt (s : State) (r : CmdEnd) : (s.conclude r).hsalt = s.hsalt := by cases r <;> rfl
@[simp] theorem State.conclude_iv (s : State) (r : CmdEnd) : (s.conclude r).iv = s.iv := by cases r <;> rfl
@[simp] theorem State.conclude_ekey (s : State) (r : CmdEnd) : (s.conclude r).ekey = s.ekey := by cases r <;> rfl
@[simp] theorem State.conclude_hkey (s : State) (r : CmdEnd) : (s.conclude r).hkey = s.hkey := by cases r <;> rfl
@[simp] theorem State.conclude_ctx (s : State) (r : CmdEnd) : (s.conclude r).ctx = s.ctx := by cases r <;> rfl
@[simp] theorem State.conclude_mode (s : State) (r : CmdEnd) : (s.conclude r).mode = s.mode := by cases r <;> rfl
@[simp] theorem State.conclude_eq (s : State) (r : CmdEnd) : (s.conclude r).eq = s.eq := by cases r <;> rfl
@[simp] theorem State.conclude_lasterr (s : State) (r : CmdEnd) : (s.conclude r).lasterr = r.status := by cases r <;> rfl
@[simp] theorem State.conclude_cfg (s : State) (r : CmdEnd) : (s.conclude r).cfg = s.cfg := by cases r <;> rfl
@[simp] theorem State.conclude_inputs (s : State) (r : CmdEnd) : (s.conclude r).inputs = s.inputs := by cases r <;> rfl
@[simp] theorem State.conclude_rsp (s : State) (r : CmdEnd) : (s.conclude r).rsp = s.rsp ++ [responsePacket r.status r.payload] := by cases r <;> rfl
@[simp] theorem State.conclude_rng (s : State) (r : CmdEnd) : (s.conclude r).rng = s.rng := by cases r <;> rfl
@[simp] theorem State.conclude_draws (s : State) (r : CmdEnd) : (s.conclude r).draws = s.draws := by cases r <;> rfl

end Sys2Proof.Machine
end

