-- ==== Sys2Proof/Laws/Ops.lean ====
section
/-! SUPPORT. What the shared operations can do, said once: the end of a command, the randomness
port, reset and the host's inputs. -/

namespace Sys2Proof.Machine

/-- Every command goes on (R11, R293). -/
theorem complete_eq (r : CmdEnd × State) : complete r = .next (r.2.conclude r.1) := rfl

/-- What a command answers is what its end says, and the state is the one it left. -/
theorem complete_next {r : CmdEnd × State} {t : State} (h : complete r = .next t) :
    t = r.2.conclude r.1 := by
  cases h
  rfl

@[simp] theorem conclude_ok (s : State) (p : List Byte) : s.conclude (.ok p) = s.returnOk p := rfl

@[simp] theorem conclude_raise (s : State) (e : Status) : s.conclude (.raise e) = s.raiseError e := rfl

theorem State.zeroCtx_ctxEmpty (s : State) : s.zeroCtx.CtxEmpty := ⟨rfl, rfl, rfl, rfl, rfl, rfl, rfl⟩

@[simp] theorem State.zeroCtx_zeroCtx (s : State) : s.zeroCtx.zeroCtx = s.zeroCtx := rfl

@[simp] theorem State.zeroCtx_loadCtx (s : State) (c : Ctx) (m : Mode) (es hs : Bytes 8)
    (v : Bytes 16) (ek hk : Bytes 32) :
    s.zeroCtx.loadCtx c m es hs v ek hk = s.loadCtx c m es hs v ek hk := rfl

@[simp] theorem State.loadCtx_zeroCtx (s : State) (c : Ctx) (m : Mode) (es hs : Bytes 8)
    (v : Bytes 16) (ek hk : Bytes 32) : (s.loadCtx c m es hs v ek hk).zeroCtx = s.zeroCtx := rfl

/-- A response has five bytes before its payload (R77). -/
@[simp] theorem responsePacket_length (st : Status) (p : List Byte) :
    (responsePacket st p).length = 5 + p.length := by
  simp [responsePacket]
  omega

/-- A successful response with a payload of 32 bytes (R77). -/
theorem okPacket_of_length_32 {p : List Byte} (h : p.length = 32) :
    okPacket p = 0x00 :: 0x00 :: 0x00 :: 0x00 :: 0x20 :: p := by
  rw [okPacket, h]
  rfl

/-! ## The randomness port -/

theorem State.nextAnswer_eq (s : State) : s.nextAnswer = s.answer 0 := by
  unfold State.nextAnswer State.answer
  cases s.rng <;> rfl

theorem State.answer_drawn (s : State) (k : Nat) : s.drawn.answer k = s.answer (k + 1) := by
  unfold State.answer
  cases h : s.rng <;> simp [h, Nat.add_comm, Nat.add_left_comm]

/-- The port's fields after `k` draws; every other field stays. -/
theorem State.drawnTimes_eq (s : State) (k : Nat) :
    s.drawnTimes k = { s with rng := s.rng.drop k, draws := s.draws + k } := by
  induction k generalizing s with
  | zero => rfl
  | succ k ih =>
    rw [State.drawnTimes, ih]
    simp [State.drawn]
    omega

/-- A draw of eight bytes that succeeds gives the first eight of the answer. -/
theorem State.rngDraw_eight {s : State} {b : Bytes 16} (h : s.answer 0 = .ok b) :
    s.rngDraw 8 = (some (saltOf b), s.drawn) := by
  rw [State.rngDraw, s.nextAnswer_eq, h]
  exact congrArg (fun x => (some x, s.drawn)) (Subtype.ext (Bytes.fit_val (by simp)))

/-- A draw of sixteen bytes that succeeds gives the answer. -/
theorem State.rngDraw_sixteen {s : State} {b : Bytes 16} (h : s.answer 0 = .ok b) :
    s.rngDraw 16 = (some b, s.drawn) := by
  rw [State.rngDraw, s.nextAnswer_eq, h]
  refine congrArg (fun x => (some x, s.drawn)) (Subtype.ext ?_)
  rw [Bytes.fit_val (by simp)]
  exact List.take_of_length_le (by simp)

/-- A draw that fails gives no bytes and is counted. -/
theorem State.rngDraw_fail {s : State} {n : Nat} (h : s.answer 0 = .fail) :
    s.rngDraw n = (none, s.drawn) := by
  rw [State.rngDraw, s.nextAnswer_eq, h]

/-- All that `GenSaltsIv()` can do (R191): it fails at the first failing draw, having made that draw
and no later one, or it makes three draws and gives their bytes. -/
theorem State.genSaltsIv_cases (s : State) :
    (s.answer 0 = .fail ∧ s.genSaltsIv = (none, s.drawnTimes 1)) ∨
    (∃ b0, s.answer 0 = .ok b0 ∧ s.answer 1 = .fail ∧ s.genSaltsIv = (none, s.drawnTimes 2)) ∨
    (∃ b0 b1, s.answer 0 = .ok b0 ∧ s.answer 1 = .ok b1 ∧ s.answer 2 = .fail ∧
      s.genSaltsIv = (none, s.drawnTimes 3)) ∨
    (∃ b0 b1 b2, s.answer 0 = .ok b0 ∧ s.answer 1 = .ok b1 ∧ s.answer 2 = .ok b2 ∧
      s.genSaltsIv = (some ⟨saltOf b0, saltOf b1, b2⟩, s.drawnTimes 3)) := by
  have e1 : s.drawn.answer 0 = s.answer 1 := s.answer_drawn 0
  have e2 : s.drawn.drawn.answer 0 = s.answer 2 := by rw [State.answer_drawn, State.answer_drawn]
  cases h0 : s.answer 0 with
  | fail => exact .inl ⟨rfl, by simp [State.genSaltsIv, State.rngDraw_fail h0, State.drawnTimes]⟩
  | ok b0 =>
    cases h1 : s.answer 1 with
    | fail =>
      refine .inr (.inl ⟨b0, rfl, rfl, ?_⟩)
      simp [State.genSaltsIv, State.rngDraw_eight h0, State.rngDraw_fail (e1.trans h1),
        State.drawnTimes]
    | ok b1 =>
      cases h2 : s.answer 2 with
      | fail =>
        refine .inr (.inr (.inl ⟨b0, b1, rfl, rfl, rfl, ?_⟩))
        simp [State.genSaltsIv, State.rngDraw_eight h0, State.rngDraw_eight (e1.trans h1),
          State.rngDraw_fail (e2.trans h2), State.drawnTimes]
      | ok b2 =>
        refine .inr (.inr (.inr ⟨b0, b1, b2, rfl, rfl, rfl, ?_⟩))
        simp [State.genSaltsIv, State.rngDraw_eight h0, State.rngDraw_eight (e1.trans h1),
          State.rngDraw_sixteen (e2.trans h2), State.drawnTimes]

/-! ## Reset and inputs -/

theorem State.takeInput_nil {s : State} (h : s.inputs = []) : s.takeInput = none := by
  simp [State.takeInput, h]

theorem State.takeInput_cons {s : State} {e : HostEvent} {rest : List HostEvent}
    (h : s.inputs = e :: rest) : s.takeInput = some (e, { s with inputs := rest }) := by
  simp [State.takeInput, h]

end Sys2Proof.Machine
end

