-- ==== Sys2Proof/Laws/Frame.lean ====
section
/-! SUPPORT. Headers and frames: lengths, cutting a frame apart, what the parser can answer. -/

namespace Sys2Proof.Machine

@[simp] theorem State.hdr_length (s : State) : s.hdr.length = hdrLen s.mode := by
  cases h : s.mode <;> simp [State.hdr, h, hdrLen]

/-- The ciphertext part of a frame (R86, R87). -/
theorem ctOf_frame (h c t : List Byte) (ht : t.length = tagLen) :
    ctOf (frame h c t) h.length = c := by
  simp [ctOf, frame, slice, ht, ← Nat.add_assoc]

/-- The tag of a frame (R86, R87). -/
theorem tagOf_frame (h c t : List Byte) (ht : t.length = tagLen) : tagOf (frame h c t) = t := by
  unfold tagOf frame slice
  have e : (h ++ c ++ t).length - tagLen = (h ++ c).length := by
    rw [List.length_append (bs := t), ht]
    omega
  rw [e, List.drop_left]
  exact List.take_of_length_le (by simp; omega)

/-- All that the parser can answer (R193): the three refusals in their order, or the fields. -/
theorem parseHeader_cases (m : List Byte) (want : Mode) :
    (m.length < minMsg ∧ parseHeader m want = .error .shortInput) ∨
    (minMsg ≤ m.length ∧ (m.getD 0 0 ≠ versionByte ∨ m.getD 1 0 ≠ want.byte) ∧
      parseHeader m want = .error .format) ∨
    (minMsg ≤ m.length ∧ m.getD 0 0 = versionByte ∧ m.getD 1 0 = want.byte ∧
      parseHeader m want = .ok (headerFields m want)) := by
  unfold parseHeader
  split
  · exact .inl ⟨‹_›, rfl⟩
  · split
    · exact .inr (.inl ⟨by omega, .inl ‹_›, rfl⟩)
    · split
      · exact .inr (.inl ⟨by omega, .inr ‹_›, rfl⟩)
      · exact .inr (.inr ⟨by omega, by simpa using ‹¬ m.getD 0 0 ≠ versionByte›,
          by simpa using ‹¬ m.getD 1 0 ≠ want.byte›, rfl⟩)

/-- Every message the engine makes has its header, a whole number of blocks and a tag. -/
theorem State.message_length (s : State) (pt : List Byte) :
    (s.message pt).length = hdrLen s.mode + 16 * (pt.length / 16 + 1) + tagLen := by
  have hb : (encryptBody s.ekey s.iv pt).length = 16 * (pt.length / 16 + 1) := by
    rw [encryptBody_eq]
    simp [cbcEnc, pad_length]
  simp [State.message, frame, hb, tagLen]
  omega

end Sys2Proof.Machine
end

