-- ==== Sys2Proof/Laws/Commands.lean ====
section
/-! SUPPORT. What each command's pseudocode can do, said once: its end and the state it leaves, case
by case with the guards. Later proofs cite these and unfold no meaning. -/

namespace Sys2Proof.Machine

/-- The pseudocode behind each command; `GET_STATUS` stands outside the common frame (R210). -/
def runOf : Instr → State → CmdEnd × State
  | .getStatus, s => (.ok [s.statusByte], s)
  | .clear, s => (.ok [], s.zeroCtx)
  | .getHdr, s => runGetHdr s
  | .encBuildPw pw es hs v, s => runEncBuildPw pw es hs v s
  | .encBuildKeys ek hk v, s =>
    (.ok [], s.zeroCtx.loadCtx .enc .keys (Bytes.zero 8) (Bytes.zero 8) v ek hk)
  | .encrypt pt, s => runEncrypt pt s
  | .encryptMsg pw pt, s => runEncryptMsg pw pt s
  | .decBuildPw pw m, s => runDecBuildPw pw m s
  | .decBuildKeys ek hk m, s => runDecBuildKeys ek hk m s
  | .decrypt m, s => runDecrypt m s
  | .decryptMsg pw m, s => runDecryptMsg pw m s
  | .kdf pw salt, s => runKdf pw salt s
  | .tag k d, s => runTag k d s
  | .cteq a b, s => runCteq a b s

/-- A command other than `GET_STATUS` goes through the common frame (R210). -/
theorem exec_eq_complete {i : Instr} (h : i ≠ .getStatus) (s : State) :
    exec i s = complete (runOf i s) := by
  cases i <;> first | rfl | exact absurd rfl h

theorem runGetHdr_cases (s : State) :
    (s.ctx = .none ∧ runGetHdr s = (.raise .sequence, s)) ∨
    (s.ctx ≠ .none ∧ runGetHdr s = (.ok s.hdr, s)) := by
  unfold runGetHdr
  split
  · exact .inl ⟨‹_›, rfl⟩
  · exact .inr ⟨‹_›, rfl⟩

theorem runEncBuildPw_cases (pw : List Byte) (es hs : Bytes 8) (v : Bytes 16) (s : State) :
    ((s.cfg.maxPw < pw.length ∨ pw.length = 0) ∧
      runEncBuildPw pw es hs v s = (.raise .inputSize, s.zeroCtx)) ∨
    (1 ≤ pw.length ∧ pw.length ≤ s.cfg.maxPw ∧
      runEncBuildPw pw es hs v s = (.ok [], s.loadPassword .enc pw es hs v)) := by
  by_cases h1 : s.cfg.maxPw < pw.length
  · exact .inl ⟨.inl h1, if_pos h1⟩
  · by_cases h2 : pw.length = 0
    · exact .inl ⟨.inr h2, (if_neg h1).trans (if_pos h2)⟩
    · exact .inr ⟨by omega, by omega, (if_neg h1).trans (if_neg h2)⟩

theorem runEncrypt_cases (pt : List Byte) (s : State) :
    (s.cfg.maxData < pt.length ∧ runEncrypt pt s = (.raise .inputSize, s)) ∨
    (pt.length ≤ s.cfg.maxData ∧ s.ctx ≠ .enc ∧ runEncrypt pt s = (.raise .sequence, s)) ∨
    (pt.length ≤ s.cfg.maxData ∧ s.ctx = .enc ∧ runEncrypt pt s = (.ok (s.message pt), s)) := by
  simp only [runEncrypt, State.plaintextTooLong]
  split
  · exact .inl ⟨‹_›, rfl⟩
  · split
    · exact .inr (.inl ⟨by omega, ‹_›, rfl⟩)
    · exact .inr (.inr ⟨by omega, by simpa using ‹¬ s.ctx ≠ .enc›, rfl⟩)

/-- What the checks of ENCRYPT_MSG refuse before any draw (R217). -/
theorem runEncryptMsg_refused {pw pt : List Byte} {s : State}
    (h : s.cfg.maxPw < pw.length ∨ s.cfg.maxData < pt.length ∨ pw.length = 0) :
    runEncryptMsg pw pt s = (.raise .inputSize, s.zeroCtx) := by
  simp only [runEncryptMsg, State.passwordTooLong, State.plaintextTooLong, State.zeroCtx_cfg]
  split
  · rfl
  · split
    · rfl
    · omega

/-- ENCRYPT_MSG once its checks have passed: the three draws decide (R217). -/
theorem runEncryptMsg_drawn {pw pt : List Byte} {s : State} (h1 : 1 ≤ pw.length)
    (h2 : pw.length ≤ s.cfg.maxPw) (h3 : pt.length ≤ s.cfg.maxData) :
    runEncryptMsg pw pt s =
      match s.zeroCtx.genSaltsIv with
      | (none, u) => (.raise .rng, u)
      | (some g, u) =>
        (.ok ((u.loadPassword .enc pw g.esalt g.hsalt g.iv).message pt), u.zeroCtx) := by
  simp only [runEncryptMsg, State.passwordTooLong, State.plaintextTooLong, State.zeroCtx_cfg]
  rw [if_neg (by omega), if_neg (by omega)]
  rfl

theorem runDecBuildPw_cases (pw m : List Byte) (s : State) :
    ((s.cfg.maxPw < pw.length ∨ maxMsg s.cfg < m.length) ∧
      runDecBuildPw pw m s = (.raise .inputSize, s.zeroCtx)) ∨
    (pw.length ≤ s.cfg.maxPw ∧ m.length ≤ maxMsg s.cfg ∧ m.length < minMsg ∧
      runDecBuildPw pw m s = (.raise .shortInput, s.zeroCtx)) ∨
    (pw.length ≤ s.cfg.maxPw ∧ m.length ≤ maxMsg s.cfg ∧ minMsg ≤ m.length ∧
      (m.getD 0 0 ≠ versionByte ∨ m.getD 1 0 ≠ Mode.password.byte) ∧
      runDecBuildPw pw m s = (.raise .format, s.zeroCtx)) ∨
    (pw.length ≤ s.cfg.maxPw ∧ m.length ≤ maxMsg s.cfg ∧ minMsg ≤ m.length ∧
      m.getD 0 0 = versionByte ∧ m.getD 1 0 = Mode.password.byte ∧
      runDecBuildPw pw m s =
        (.ok [], s.loadPassword .dec pw (headerFields m .password).esalt
          (headerFields m .password).hsalt (headerFields m .password).iv)) := by
  by_cases hc : s.cfg.maxPw < pw.length ∨ maxMsg s.cfg < m.length
  · exact .inl ⟨hc, if_pos hc⟩
  · have hr : runDecBuildPw pw m s =
        match parseHeader m .password with
        | .error e => (.raise e, s.zeroCtx)
        | .ok f => (.ok [], s.zeroCtx.loadPassword .dec pw f.esalt f.hsalt f.iv) := if_neg hc
    right
    rcases parseHeader_cases m .password with ⟨h, e⟩ | ⟨h, hb, e⟩ | ⟨h, h0, h1, e⟩ <;> rw [e] at hr
    · exact .inl ⟨by omega, by omega, h, hr⟩
    · exact .inr (.inl ⟨by omega, by omega, h, hb, hr⟩)
    · exact .inr (.inr ⟨by omega, by omega, h, h0, h1, hr⟩)

theorem runDecBuildKeys_cases (ek hk : Bytes 32) (m : List Byte) (s : State) :
    (maxMsg s.cfg < m.length ∧ runDecBuildKeys ek hk m s = (.raise .inputSize, s.zeroCtx)) ∨
    (m.length ≤ maxMsg s.cfg ∧ m.length < minMsg ∧
      runDecBuildKeys ek hk m s = (.raise .shortInput, s.zeroCtx)) ∨
    (m.length ≤ maxMsg s.cfg ∧ minMsg ≤ m.length ∧
      (m.getD 0 0 ≠ versionByte ∨ m.getD 1 0 ≠ Mode.keys.byte) ∧
      runDecBuildKeys ek hk m s = (.raise .format, s.zeroCtx)) ∨
    (m.length ≤ maxMsg s.cfg ∧ minMsg ≤ m.length ∧
      m.getD 0 0 = versionByte ∧ m.getD 1 0 = Mode.keys.byte ∧
      runDecBuildKeys ek hk m s =
        (.ok [], s.loadCtx .dec .keys (Bytes.zero 8) (Bytes.zero 8) (headerFields m .keys).iv ek hk)) := by
  by_cases hc : maxMsg s.cfg < m.length
  · exact .inl ⟨hc, if_pos hc⟩
  · have hr : runDecBuildKeys ek hk m s =
        match parseHeader m .keys with
        | .error e => (.raise e, s.zeroCtx)
        | .ok f =>
          (.ok [], s.zeroCtx.loadCtx .dec .keys (Bytes.zero 8) (Bytes.zero 8) f.iv ek hk) :=
      if_neg hc
    right
    rcases parseHeader_cases m .keys with ⟨h, e⟩ | ⟨h, hb, e⟩ | ⟨h, h0, h1, e⟩ <;> rw [e] at hr
    · exact .inl ⟨by omega, h, hr⟩
    · exact .inr (.inl ⟨by omega, h, hb, hr⟩)
    · exact .inr (.inr ⟨by omega, h, h0, h1, hr⟩)

theorem runDecrypt_cases (m : List Byte) (s : State) :
    (maxMsg s.cfg < m.length ∧ runDecrypt m s = (.raise .inputSize, s)) ∨
    (m.length ≤ maxMsg s.cfg ∧ s.ctx ≠ .dec ∧ runDecrypt m s = (.raise .sequence, s)) ∨
    (m.length ≤ maxMsg s.cfg ∧ s.ctx = .dec ∧ m.length < hdrLen s.mode + tagLen ∧
      runDecrypt m s = (.raise .noTag, s)) ∨
    (m.length ≤ maxMsg s.cfg ∧ s.ctx = .dec ∧ hdrLen s.mode + tagLen ≤ m.length ∧
      s.tagVerdict m = false ∧ runDecrypt m s = (.raise .hmac, s.setEq false)) ∨
    (m.length ≤ maxMsg s.cfg ∧ s.ctx = .dec ∧ hdrLen s.mode + tagLen ≤ m.length ∧
      s.tagVerdict m = true ∧ decryptBody s.ekey s.iv (ctOf m (hdrLen s.mode)) = none ∧
      runDecrypt m s = (.raise .unpad, s.setEq true)) ∨
    (∃ pt, m.length ≤ maxMsg s.cfg ∧ s.ctx = .dec ∧ hdrLen s.mode + tagLen ≤ m.length ∧
      s.tagVerdict m = true ∧ decryptBody s.ekey s.iv (ctOf m (hdrLen s.mode)) = some pt ∧
      runDecrypt m s = (.ok pt, s.setEq true)) := by
  simp only [runDecrypt, State.messageTooLong]
  split
  · exact .inl ⟨‹_›, rfl⟩
  · refine .inr ?_
    split
    · exact .inl ⟨by omega, ‹_›, rfl⟩
    · rename_i hc
      have hc : s.ctx = .dec := by simpa using hc
      refine .inr ?_
      split
      · exact .inl ⟨by omega, hc, ‹_›, rfl⟩
      · refine .inr ?_
        split
        · exact .inl ⟨by omega, hc, by omega, ‹_›, rfl⟩
        · rename_i hv
          have hv : s.tagVerdict m = true := by simpa using hv
          refine .inr ?_
          cases hd : decryptBody s.ekey s.iv (ctOf m (hdrLen s.mode)) with
          | none => exact .inl ⟨by omega, hc, by omega, hv, rfl, rfl⟩
          | some pt => exact .inr ⟨pt, by omega, hc, by omega, hv, rfl, rfl⟩

/-- DECRYPT_MSG whose build is refused: the context is empty and the error is the build's (R221). -/
theorem runDecryptMsg_refused {pw m : List Byte} {s u : State} {e : Status}
    (h : runDecBuildPw pw m s = (.raise e, u)) : runDecryptMsg pw m s = (.raise e, u.zeroCtx) := by
  simp [runDecryptMsg, h]

/-- DECRYPT_MSG whose build succeeds: DECRYPT decides and the context is emptied (R221). -/
theorem runDecryptMsg_built {pw m p : List Byte} {s u : State}
    (h : runDecBuildPw pw m s = (.ok p, u)) :
    runDecryptMsg pw m s = ((runDecrypt m u).1, (runDecrypt m u).2.zeroCtx) := by
  simp [runDecryptMsg, h]

theorem runKdf_cases (pw : List Byte) (salt : Bytes 8) (s : State) :
    (s.cfg.maxPw < pw.length ∧ runKdf pw salt s = (.raise .inputSize, s)) ∨
    (pw.length ≤ s.cfg.maxPw ∧ runKdf pw salt s = (.ok (kdf pw salt).val, s)) := by
  simp only [runKdf, State.passwordTooLong]
  split
  · exact .inl ⟨‹_›, rfl⟩
  · exact .inr ⟨by omega, rfl⟩

theorem runTag_cases (k : Bytes 32) (d : List Byte) (s : State) :
    (maxMsg s.cfg < d.length ∧ runTag k d s = (.raise .inputSize, s)) ∨
    (d.length ≤ maxMsg s.cfg ∧ runTag k d s = (.ok (hmacSha256 k.val d), s)) := by
  simp only [runTag, State.messageTooLong]
  split
  · exact .inl ⟨‹_›, rfl⟩
  · exact .inr ⟨by omega, rfl⟩

theorem runCteq_cases (a b : List Byte) (s : State) :
    ((maxMsg s.cfg < a.length ∨ maxMsg s.cfg < b.length) ∧
      runCteq a b s = (.raise .inputSize, s)) ∨
    (a.length ≤ maxMsg s.cfg ∧ b.length ≤ maxMsg s.cfg ∧
      runCteq a b s = (.ok [if ctEq a b then 0x01 else 0x00], s.setEq (ctEq a b))) := by
  simp only [runCteq, State.messageTooLong]
  split
  · exact .inl ⟨‹_›, rfl⟩
  · exact .inr ⟨by omega, by omega, rfl⟩

end Sys2Proof.Machine
end

