-- ==== Sys2Proof/Laws/Decode.lean ====
section
/-! SUPPORT. What each piece of the decoder takes off a packet, in both directions. -/

namespace Sys2Proof

@[simp] theorem Op.ofByte_code (o : Op) : Op.ofByte o.code = some o := by cases o <;> rfl

theorem Op.code_of_ofByte {b : Byte} {o : Op} (h : Op.ofByte b = some o) : o.code = b := by
  have := List.find?_some h
  simpa using this

/-- No two rows of the opcode map share an opcode (R74). -/
theorem Op.code_injective {o o' : Op} (h : o.code = o'.code) : o = o' := by
  have := Op.ofByte_code o
  rw [h, Op.ofByte_code] at this
  exact (Option.some.inj this).symm

/-- A byte of the opcode map chooses its row; any other byte is illegal (R74, R75). -/
theorem decode_cons (b : Byte) (p : List Byte) :
    decode (b :: p) =
      match Op.ofByte b with
      | none => .error (.unknownOpcode b)
      | some o => decodeOperands o p := rfl

/-- Decoding an encoded command is taking its operands off (R71, R75). -/
theorem decode_encode (i : Instr) : decode (encode i) = decodeOperands i.op (encodeOperands i) := by
  rw [encode, decode_cons, Op.ofByte_code]

@[simp] theorem takeFix_append {n : Nat} (b : Bytes n) (rest : List Byte) :
    takeFix n (b.val ++ rest) = .ok (b, rest) := by
  obtain ⟨b, rfl⟩ := b
  simp [takeFix]

theorem takeFix_ok {n : Nat} {p rest : List Byte} {b : Bytes n} (h : takeFix n p = .ok (b, rest)) :
    p = b.val ++ rest := by
  unfold takeFix at h
  split at h
  · cases h
    exact (List.take_append_drop n p).symm
  · cases h

theorem takeVar_append {b : List Byte} (h : b.length < 2 ^ 32) (rest : List Byte) :
    takeVar (varOperand b ++ rest) = .ok (b, rest) := by
  have hb := be32_enc32 h
  simp only [varOperand, enc32, List.cons_append, List.nil_append, takeVar, hb]
  simp

theorem takeVar_cons (b0 b1 b2 b3 : Byte) (q : List Byte) :
    takeVar (b0 :: b1 :: b2 :: b3 :: q) =
      if be32 b0 b1 b2 b3 ≤ q.length then
        .ok (q.take (be32 b0 b1 b2 b3), q.drop (be32 b0 b1 b2 b3))
      else .error .variableCutShort := rfl

theorem takeVar_ok_cons {b0 b1 b2 b3 : Byte} {q rest b : List Byte}
    (h : takeVar (b0 :: b1 :: b2 :: b3 :: q) = .ok (b, rest)) :
    b.length = be32 b0 b1 b2 b3 ∧ q = b ++ rest := by
  rw [takeVar_cons] at h
  split at h
  · rename_i hle
    simp only [Except.ok.injEq, Prod.mk.injEq] at h
    rw [← h.1, ← h.2]
    exact ⟨by rw [List.length_take]; omega, (List.take_append_drop _ _).symm⟩
  · cases h

theorem takeVar_ok {p rest b : List Byte} (h : takeVar p = .ok (b, rest)) :
    p = varOperand b ++ rest ∧ b.length < 2 ^ 32 := by
  match p, h with
  | b0 :: b1 :: b2 :: b3 :: q, h =>
    obtain ⟨hl, hq⟩ := takeVar_ok_cons h
    refine ⟨?_, hl ▸ be32_lt b0 b1 b2 b3⟩
    rw [varOperand, hl, enc32_be32, hq]
    rfl
  | [], h => cases h
  | [_], h => cases h
  | [_, _], h => cases h
  | [_, _, _], h => cases h

@[simp] theorem finishPacket_nil (i : Instr) : finishPacket i [] = .ok i := rfl

theorem finishPacket_ok {i j : Instr} {p : List Byte} (h : finishPacket i p = .ok j) :
    p = [] ∧ i = j := by
  cases p with
  | nil => exact ⟨rfl, Except.ok.inj h⟩
  | cons => cases h

end Sys2Proof
end

