-- ==== Sys2Proof/Laws/Ends.lean ====
section
/-! SUPPORT. Every way a command can end, as one relation, and the lemma that a command ends in one
of them: a statement about all commands needs one case analysis and unfolds nothing. -/

namespace Sys2Proof.Machine

/-- The state DECRYPT_MSG checks the tag in: the context its own build has filled (R221). -/
abbrev State.opened (s : State) (pw m : List Byte) : State :=
  s.loadPassword .dec pw (headerFields m .password).esalt (headerFields m .password).hsalt
    (headerFields m .password).iv

/-- A DECRYPT_MSG operand pair that the build accepts (R218, R221). -/
structure State.Opens (s : State) (pw m : List Byte) : Prop where
  password : pw.length ≤ s.cfg.maxPw
  size : m.length ≤ maxMsg s.cfg
  long : minMsg ≤ m.length
  version : m.getD 0 0 = versionByte
  mode : m.getD 1 0 = Mode.password.byte

/-- Every way a command's pseudocode can end: its guards, its end and the state it leaves. -/
inductive Ends (s : State) : Instr → CmdEnd × State → Prop
  | getStatus : Ends s .getStatus (.ok [s.statusByte], s)
  | clear : Ends s .clear (.ok [], s.zeroCtx)
  | getHdrNone : s.ctx = .none → Ends s .getHdr (.raise .sequence, s)
  | getHdr : s.ctx ≠ .none → Ends s .getHdr (.ok s.hdr, s)
  | encBuildPwSize {pw es hs v} : s.cfg.maxPw < pw.length ∨ pw.length = 0 →
      Ends s (.encBuildPw pw es hs v) (.raise .inputSize, s.zeroCtx)
  | encBuildPw {pw es hs v} : 1 ≤ pw.length → pw.length ≤ s.cfg.maxPw →
      Ends s (.encBuildPw pw es hs v) (.ok [], s.loadPassword .enc pw es hs v)
  | encBuildKeys {ek hk v} : Ends s (.encBuildKeys ek hk v)
      (.ok [], s.loadCtx .enc .keys (Bytes.zero 8) (Bytes.zero 8) v ek hk)
  | encryptSize {pt} : s.cfg.maxData < pt.length → Ends s (.encrypt pt) (.raise .inputSize, s)
  | encryptSequence {pt} : pt.length ≤ s.cfg.maxData → s.ctx ≠ .enc →
      Ends s (.encrypt pt) (.raise .sequence, s)
  | encrypt {pt} : pt.length ≤ s.cfg.maxData → s.ctx = .enc →
      Ends s (.encrypt pt) (.ok (s.message pt), s)
  | encryptMsgSize {pw pt} :
      s.cfg.maxPw < pw.length ∨ s.cfg.maxData < pt.length ∨ pw.length = 0 →
      Ends s (.encryptMsg pw pt) (.raise .inputSize, s.zeroCtx)
  | encryptMsgRng {pw pt k} : 1 ≤ pw.length → pw.length ≤ s.cfg.maxPw → pt.length ≤ s.cfg.maxData →
      k < 3 → (∀ j, j < k → s.answer j ≠ .fail) → s.answer k = .fail →
      Ends s (.encryptMsg pw pt) (.raise .rng, s.zeroCtx.afterDraws (k + 1))
  | encryptMsg {pw pt b0 b1 b2} : 1 ≤ pw.length → pw.length ≤ s.cfg.maxPw →
      pt.length ≤ s.cfg.maxData → s.answer 0 = .ok b0 → s.answer 1 = .ok b1 → s.answer 2 = .ok b2 →
      Ends s (.encryptMsg pw pt)
        (.ok ((s.loadPassword .enc pw (saltOf b0) (saltOf b1) b2).message pt), s.zeroCtx.afterDraws 3)
  | decBuildPwSize {pw m} : s.cfg.maxPw < pw.length ∨ maxMsg s.cfg < m.length →
      Ends s (.decBuildPw pw m) (.raise .inputSize, s.zeroCtx)
  | decBuildPwShort {pw m} : pw.length ≤ s.cfg.maxPw → m.length ≤ maxMsg s.cfg →
      m.length < minMsg → Ends s (.decBuildPw pw m) (.raise .shortInput, s.zeroCtx)
  | decBuildPwFormat {pw m} : pw.length ≤ s.cfg.maxPw → m.length ≤ maxMsg s.cfg →
      minMsg ≤ m.length → m.getD 0 0 ≠ versionByte ∨ m.getD 1 0 ≠ Mode.password.byte →
      Ends s (.decBuildPw pw m) (.raise .format, s.zeroCtx)
  | decBuildPw {pw m} : pw.length ≤ s.cfg.maxPw → m.length ≤ maxMsg s.cfg →
      minMsg ≤ m.length → m.getD 0 0 = versionByte → m.getD 1 0 = Mode.password.byte →
      Ends s (.decBuildPw pw m) (.ok [], s.loadPassword .dec pw (headerFields m .password).esalt
        (headerFields m .password).hsalt (headerFields m .password).iv)
  | decBuildKeysSize {ek hk m} : maxMsg s.cfg < m.length →
      Ends s (.decBuildKeys ek hk m) (.raise .inputSize, s.zeroCtx)
  | decBuildKeysShort {ek hk m} : m.length ≤ maxMsg s.cfg → m.length < minMsg →
      Ends s (.decBuildKeys ek hk m) (.raise .shortInput, s.zeroCtx)
  | decBuildKeysFormat {ek hk m} : m.length ≤ maxMsg s.cfg → minMsg ≤ m.length →
      m.getD 0 0 ≠ versionByte ∨ m.getD 1 0 ≠ Mode.keys.byte →
      Ends s (.decBuildKeys ek hk m) (.raise .format, s.zeroCtx)
  | decBuildKeys {ek hk m} : m.length ≤ maxMsg s.cfg → minMsg ≤ m.length →
      m.getD 0 0 = versionByte → m.getD 1 0 = Mode.keys.byte →
      Ends s (.decBuildKeys ek hk m) (.ok [], s.loadCtx .dec .keys (Bytes.zero 8) (Bytes.zero 8)
        (headerFields m .keys).iv ek hk)
  | decryptSize {m} : maxMsg s.cfg < m.length → Ends s (.decrypt m) (.raise .inputSize, s)
  | decryptSequence {m} : m.length ≤ maxMsg s.cfg → s.ctx ≠ .dec →
      Ends s (.decrypt m) (.raise .sequence, s)
  | decryptNoTag {m} : m.length ≤ maxMsg s.cfg → s.ctx = .dec → m.length < hdrLen s.mode + tagLen →
      Ends s (.decrypt m) (.raise .noTag, s)
  | decryptHmac {m} : m.length ≤ maxMsg s.cfg → s.ctx = .dec → hdrLen s.mode + tagLen ≤ m.length →
      s.tagVerdict m = false → Ends s (.decrypt m) (.raise .hmac, s.setEq false)
  | decryptUnpad {m} : m.length ≤ maxMsg s.cfg → s.ctx = .dec → hdrLen s.mode + tagLen ≤ m.length →
      s.tagVerdict m = true → decryptBody s.ekey s.iv (ctOf m (hdrLen s.mode)) = none →
      Ends s (.decrypt m) (.raise .unpad, s.setEq true)
  | decrypt {m pt} : m.length ≤ maxMsg s.cfg → s.ctx = .dec → hdrLen s.mode + tagLen ≤ m.length →
      s.tagVerdict m = true → decryptBody s.ekey s.iv (ctOf m (hdrLen s.mode)) = some pt →
      Ends s (.decrypt m) (.ok pt, s.setEq true)
  | decryptMsgSize {pw m} : s.cfg.maxPw < pw.length ∨ maxMsg s.cfg < m.length →
      Ends s (.decryptMsg pw m) (.raise .inputSize, s.zeroCtx)
  | decryptMsgShort {pw m} : pw.length ≤ s.cfg.maxPw → m.length ≤ maxMsg s.cfg →
      m.length < minMsg → Ends s (.decryptMsg pw m) (.raise .shortInput, s.zeroCtx)
  | decryptMsgFormat {pw m} : pw.length ≤ s.cfg.maxPw → m.length ≤ maxMsg s.cfg →
      minMsg ≤ m.length → m.getD 0 0 ≠ versionByte ∨ m.getD 1 0 ≠ Mode.password.byte →
      Ends s (.decryptMsg pw m) (.raise .format, s.zeroCtx)
  | decryptMsgHmac {pw m} : s.Opens pw m → (s.opened pw m).tagVerdict m = false →
      Ends s (.decryptMsg pw m) (.raise .hmac, s.zeroCtx.setEq false)
  | decryptMsgUnpad {pw m} : s.Opens pw m → (s.opened pw m).tagVerdict m = true →
      decryptBody (s.opened pw m).ekey (s.opened pw m).iv (ctOf m 34) = none →
      Ends s (.decryptMsg pw m) (.raise .unpad, s.zeroCtx.setEq true)
  | decryptMsg {pw m pt} : s.Opens pw m → (s.opened pw m).tagVerdict m = true →
      decryptBody (s.opened pw m).ekey (s.opened pw m).iv (ctOf m 34) = some pt →
      Ends s (.decryptMsg pw m) (.ok pt, s.zeroCtx.setEq true)
  | kdfSize {pw salt} : s.cfg.maxPw < pw.length → Ends s (.kdf pw salt) (.raise .inputSize, s)
  | kdf {pw salt} : pw.length ≤ s.cfg.maxPw → Ends s (.kdf pw salt) (.ok (kdf pw salt).val, s)
  | tagSize {k d} : maxMsg s.cfg < d.length → Ends s (.tag k d) (.raise .inputSize, s)
  | tag {k d} : d.length ≤ maxMsg s.cfg → Ends s (.tag k d) (.ok (hmacSha256 k.val d), s)
  | cteqSize {a b} : maxMsg s.cfg < a.length ∨ maxMsg s.cfg < b.length →
      Ends s (.cteq a b) (.raise .inputSize, s)
  | cteq {a b} : a.length ≤ maxMsg s.cfg → b.length ≤ maxMsg s.cfg →
      Ends s (.cteq a b) (.ok [if ctEq a b then 0x01 else 0x00], s.setEq (ctEq a b))

/-- A command's pseudocode ends in one of these ways and in no other. -/
theorem runOf_ends (i : Instr) (s : State) : Ends s i (runOf i s) := by
  cases i with
  | getStatus => exact .getStatus
  | clear => exact .clear
  | getHdr =>
    show Ends s _ (runGetHdr s)
    rcases runGetHdr_cases s with ⟨h, e⟩ | ⟨h, e⟩ <;> rw [e]
    · exact .getHdrNone h
    · exact .getHdr h
  | encBuildPw pw es hs v =>
    show Ends s _ (runEncBuildPw pw es hs v s)
    rcases runEncBuildPw_cases pw es hs v s with ⟨h, e⟩ | ⟨h, h1, e⟩ <;> rw [e]
    · exact .encBuildPwSize h
    · exact .encBuildPw h h1
  | encBuildKeys ek hk v => exact .encBuildKeys
  | encrypt pt =>
    show Ends s _ (runEncrypt pt s)
    rcases runEncrypt_cases pt s with ⟨h, e⟩ | ⟨h, h1, e⟩ | ⟨h, h1, e⟩ <;> rw [e]
    · exact .encryptSize h
    · exact .encryptSequence h h1
    · exact .encrypt h h1
  | encryptMsg pw pt =>
    show Ends s _ (runEncryptMsg pw pt s)
    by_cases hc : s.cfg.maxPw < pw.length ∨ s.cfg.maxData < pt.length ∨ pw.length = 0
    · rw [runEncryptMsg_refused hc]
      exact .encryptMsgSize hc
    · have h1 : 1 ≤ pw.length := by omega
      have h2 : pw.length ≤ s.cfg.maxPw := by omega
      have h3 : pt.length ≤ s.cfg.maxData := by omega
      rw [runEncryptMsg_drawn h1 h2 h3]
      rcases s.zeroCtx.genSaltsIv_cases with
        ⟨a, e⟩ | ⟨b0, a, a', e⟩ | ⟨b0, b1, a, a', a'', e⟩ | ⟨b0, b1, b2, a, a', a'', e⟩ <;>
        rw [e] <;> simp only [State.drawnTimes_eq]
      · exact .encryptMsgRng (k := 0) h1 h2 h3 (by omega) (fun j hj => by omega) a
      · refine .encryptMsgRng (k := 1) h1 h2 h3 (by omega) (fun j hj f => ?_) a'
        obtain rfl : j = 0 := by omega
        cases a.symm.trans f
      · refine .encryptMsgRng (k := 2) h1 h2 h3 (by omega) (fun j hj f => ?_) a''
        obtain rfl | rfl : j = 0 ∨ j = 1 := by omega
        · cases a.symm.trans f
        · cases a'.symm.trans f
      · exact .encryptMsg h1 h2 h3 a a' a''
  | decBuildPw pw m =>
    show Ends s _ (runDecBuildPw pw m s)
    rcases runDecBuildPw_cases pw m s with
      ⟨h, e⟩ | ⟨h, h1, h2, e⟩ | ⟨h, h1, h2, h3, e⟩ | ⟨h, h1, h2, h3, h4, e⟩ <;> rw [e]
    · exact .decBuildPwSize h
    · exact .decBuildPwShort h h1 h2
    · exact .decBuildPwFormat h h1 h2 h3
    · exact .decBuildPw h h1 h2 h3 h4
  | decBuildKeys ek hk m =>
    show Ends s _ (runDecBuildKeys ek hk m s)
    rcases runDecBuildKeys_cases ek hk m s with
      ⟨h, e⟩ | ⟨h, h1, e⟩ | ⟨h, h1, h2, e⟩ | ⟨h, h1, h2, h3, e⟩ <;> rw [e]
    · exact .decBuildKeysSize h
    · exact .decBuildKeysShort h h1
    · exact .decBuildKeysFormat h h1 h2
    · exact .decBuildKeys h h1 h2 h3
  | decrypt m =>
    show Ends s _ (runDecrypt m s)
    rcases runDecrypt_cases m s with
      ⟨h, e⟩ | ⟨h, h1, e⟩ | ⟨h, h1, h2, e⟩ | ⟨h, h1, h2, h3, e⟩ | ⟨h, h1, h2, h3, h4, e⟩ |
      ⟨pt, h, h1, h2, h3, h4, e⟩ <;> rw [e]
    · exact .decryptSize h
    · exact .decryptSequence h h1
    · exact .decryptNoTag h h1 h2
    · exact .decryptHmac h h1 h2 h3
    · exact .decryptUnpad h h1 h2 h3 h4
    · exact .decrypt h h1 h2 h3 h4
  | decryptMsg pw m =>
    show Ends s _ (runDecryptMsg pw m s)
    rcases runDecBuildPw_cases pw m s with
      ⟨h, e⟩ | ⟨h, h1, h2, e⟩ | ⟨h, h1, h2, h3, e⟩ | ⟨h, h1, h2, h3, h4, e⟩
    · rw [runDecryptMsg_refused e]
      exact .decryptMsgSize h
    · rw [runDecryptMsg_refused e]
      exact .decryptMsgShort h h1 h2
    · rw [runDecryptMsg_refused e]
      exact .decryptMsgFormat h h1 h2 h3
    · rw [runDecryptMsg_built e]
      have o : s.Opens pw m := ⟨h, h1, h2, h3, h4⟩
      rcases runDecrypt_cases m (s.opened pw m) with
        ⟨k, e⟩ | ⟨k, k1, e⟩ | ⟨k, k1, k2, e⟩ | ⟨k, k1, k2, k3, e⟩ | ⟨k, k1, k2, k3, k4, e⟩ |
        ⟨pt, k, k1, k2, k3, k4, e⟩ <;> rw [e]
      · exact absurd h1 (Nat.not_le.mpr k)
      · exact absurd rfl k1
      · exact absurd h2 (Nat.not_le.mpr k2)
      · exact .decryptMsgHmac o k3
      · exact .decryptMsgUnpad o k3 k4
      · exact .decryptMsg o k3 k4
  | kdf pw salt =>
    show Ends s _ (runKdf pw salt s)
    rcases runKdf_cases pw salt s with ⟨h, e⟩ | ⟨h, e⟩ <;> rw [e]
    · exact .kdfSize h
    · exact .kdf h
  | tag k d =>
    show Ends s _ (runTag k d s)
    rcases runTag_cases k d s with ⟨h, e⟩ | ⟨h, e⟩ <;> rw [e]
    · exact .tagSize h
    · exact .tag h
  | cteq a b =>
    show Ends s _ (runCteq a b s)
    rcases runCteq_cases a b s with ⟨h, e⟩ | ⟨h, h1, e⟩ <;> rw [e]
    · exact .cteqSize h
    · exact .cteq h h1

/-- A command goes on, and the next state is what one of the ends concludes (R210, R293). -/
theorem exec_ends (i : Instr) (s : State) :
    ∃ r, Ends s i r ∧ exec i s = .next (if i = .getStatus then r.2.emit .ok r.1.payload
      else r.2.conclude r.1) := by
  refine ⟨_, runOf_ends i s, ?_⟩
  cases i <;> rfl

end Sys2Proof.Machine
end

