-- ==== Sys2Proof/Laws/PerInstr.lean ====
section
/-! SUPPORT. Facts stated for every command as syntax, one lemma per constructor. -/

namespace Sys2Proof.Laws.OpcodeByte

/-- The packet begins with the command's own opcode, and no other row has it (R71, R74). -/
def Statement (i : Instr) : Prop :=
  (encode i).head? = some i.op.code ∧ ∀ o : Op, o.code = i.op.code → o = i.op

theorem getStatus : Statement .getStatus := ⟨rfl, fun _ h => Op.code_injective h⟩
theorem clear : Statement .clear := ⟨rfl, fun _ h => Op.code_injective h⟩
theorem getHdr : Statement .getHdr := ⟨rfl, fun _ h => Op.code_injective h⟩
theorem encBuildPw (pw : List Byte) (es hs : Bytes 8) (v : Bytes 16) :
    Statement (.encBuildPw pw es hs v) := ⟨rfl, fun _ h => Op.code_injective h⟩
theorem encBuildKeys (ek hk : Bytes 32) (v : Bytes 16) : Statement (.encBuildKeys ek hk v) :=
  ⟨rfl, fun _ h => Op.code_injective h⟩
theorem encrypt (pt : List Byte) : Statement (.encrypt pt) := ⟨rfl, fun _ h => Op.code_injective h⟩
theorem encryptMsg (pw pt : List Byte) : Statement (.encryptMsg pw pt) :=
  ⟨rfl, fun _ h => Op.code_injective h⟩
theorem decBuildPw (pw m : List Byte) : Statement (.decBuildPw pw m) :=
  ⟨rfl, fun _ h => Op.code_injective h⟩
theorem decBuildKeys (ek hk : Bytes 32) (m : List Byte) : Statement (.decBuildKeys ek hk m) :=
  ⟨rfl, fun _ h => Op.code_injective h⟩
theorem decrypt (m : List Byte) : Statement (.decrypt m) := ⟨rfl, fun _ h => Op.code_injective h⟩
theorem decryptMsg (pw m : List Byte) : Statement (.decryptMsg pw m) :=
  ⟨rfl, fun _ h => Op.code_injective h⟩
theorem kdf (pw : List Byte) (salt : Bytes 8) : Statement (.kdf pw salt) :=
  ⟨rfl, fun _ h => Op.code_injective h⟩
theorem tag (k : Bytes 32) (d : List Byte) : Statement (.tag k d) :=
  ⟨rfl, fun _ h => Op.code_injective h⟩
theorem cteq (a b : List Byte) : Statement (.cteq a b) := ⟨rfl, fun _ h => Op.code_injective h⟩

end Sys2Proof.Laws.OpcodeByte

namespace Sys2Proof.Laws.PacketLength

/-- The length spec/opcode_table.json gives each row's packet (R73). -/
def packetLength : Instr → Nat
  | .getStatus => 1
  | .clear => 1
  | .getHdr => 1
  | .encBuildPw pw _ _ _ => 37 + pw.length
  | .encBuildKeys _ _ _ => 81
  | .encrypt pt => 5 + pt.length
  | .encryptMsg pw pt => 9 + pw.length + pt.length
  | .decBuildPw pw m => 9 + pw.length + m.length
  | .decBuildKeys _ _ m => 69 + m.length
  | .decrypt m => 5 + m.length
  | .decryptMsg pw m => 9 + pw.length + m.length
  | .kdf pw _ => 13 + pw.length
  | .tag _ d => 37 + d.length
  | .cteq a b => 9 + a.length + b.length

/-- A packet has the length its row of the table gives (R73). -/
def Statement (i : Instr) : Prop := (encode i).length = packetLength i

theorem getStatus : Statement .getStatus := rfl
theorem clear : Statement .clear := rfl
theorem getHdr : Statement .getHdr := rfl
theorem encBuildPw (pw : List Byte) (es hs : Bytes 8) (v : Bytes 16) :
    Statement (.encBuildPw pw es hs v) := by
  simp [Statement, encode, encodeOperands, varOperand, packetLength]
  omega
theorem encBuildKeys (ek hk : Bytes 32) (v : Bytes 16) : Statement (.encBuildKeys ek hk v) := by
  simp [Statement, encode, encodeOperands, packetLength]
theorem encrypt (pt : List Byte) : Statement (.encrypt pt) := by
  simp [Statement, encode, encodeOperands, varOperand, packetLength]
  omega
theorem encryptMsg (pw pt : List Byte) : Statement (.encryptMsg pw pt) := by
  simp [Statement, encode, encodeOperands, varOperand, packetLength]
  omega
theorem decBuildPw (pw m : List Byte) : Statement (.decBuildPw pw m) := by
  simp [Statement, encode, encodeOperands, varOperand, packetLength]
  omega
theorem decBuildKeys (ek hk : Bytes 32) (m : List Byte) : Statement (.decBuildKeys ek hk m) := by
  simp [Statement, encode, encodeOperands, varOperand, packetLength]
  omega
theorem decrypt (m : List Byte) : Statement (.decrypt m) := by
  simp [Statement, encode, encodeOperands, varOperand, packetLength]
  omega
theorem decryptMsg (pw m : List Byte) : Statement (.decryptMsg pw m) := by
  simp [Statement, encode, encodeOperands, varOperand, packetLength]
  omega
theorem kdf (pw : List Byte) (salt : Bytes 8) : Statement (.kdf pw salt) := by
  simp [Statement, encode, encodeOperands, varOperand, packetLength]
  omega
theorem tag (k : Bytes 32) (d : List Byte) : Statement (.tag k d) := by
  simp [Statement, encode, encodeOperands, varOperand, packetLength]
  omega
theorem cteq (a b : List Byte) : Statement (.cteq a b) := by
  simp [Statement, encode, encodeOperands, varOperand, packetLength]
  omega

end Sys2Proof.Laws.PacketLength
end

