-- ==== Sys2Proof/Tests/Slice0.lean ====
section
/-! SUPPORT. Tests. Every expected value comes from the spec: 95_test_vectors.md (ids V, S, M, B, P
and its tables), the worked encodings of 30_encoding.md rule R78, the examples of 44_commands.md.
Then, for every obligation with hypotheses, a witness that meets them. -/

namespace Sys2Proof.Tests

open Sys2Proof Sys2Proof.Machine

-- One theorem at a time: checked side by side, this many need more threads than the memory allows.
set_option Elab.async false

/-! ## Helpers -/

/-- `n` bytes written as one number, first byte leftmost, as the spec prints them. -/
def hex (n x : Nat) : List Byte := (List.range n).map (fun i => BitVec.ofNat 8 (x >>> (8 * (n - 1 - i))))

/-- The same as a fixed-length byte string. -/
def hexN (n x : Nat) : Bytes n := ⟨hex n x, by simp [hex]⟩

/-- `K1`: byte i is i. -/
def K1 : Bytes 32 := hexN 32 0x000102030405060708090a0b0c0d0e0f101112131415161718191a1b1c1d1e1f
/-- `K2`: byte i is 0x20 + i. -/
def K2 : Bytes 32 := hexN 32 0x202122232425262728292a2b2c2d2e2f303132333435363738393a3b3c3d3e3f
/-- `V`: byte i is i. -/
def V : Bytes 16 := hexN 16 0x000102030405060708090a0b0c0d0e0f

/-- The header of the key-pair messages. -/
def keyHeader : List Byte := hex 18 0x0300000102030405060708090a0b0c0d0e0f

/-- M1, "hello" under K1, K2, V. -/
def M1 : List Byte :=
  keyHeader ++ hex 16 0x7fd12dafb7e9599d0b849ad8c2e3c21f ++
    hex 32 0xcd8fdd1138c3498ca70547b8549ffed2d88ea2f4fe91580d631ecc38fda1af83

/-- B1: a genuine tag over a block that decrypts to bad padding. -/
def B1 : List Byte :=
  keyHeader ++ hex 16 0x6aaceffde740c1fbca6e35f44f5809e6 ++
    hex 32 0x30d2d9bdc1ba5d2853cbc1e4b56cf055a6514cfd394aa461bd4a5165e41de5d4

/-- B5: a genuine tag (V4.6) over the empty ciphertext. -/
def B5 : List Byte :=
  keyHeader ++ hex 32 0x6a5d638acfa0a3515bce03cd01f34093c62779fcdc3b3516d50b4219ced395b5

/-- V2.2, the message of the "thepassword" fixture. -/
def V22 : List Byte :=
  hex 34 0x0301020304050607000103040506070801020405060708090a0b0c0d0e0f00010203 ++
    hex 16 0xe01bbda5df2ca8adace38f6c588d291e ++
    hex 32 0x03f951b78d3417bc2816581dc6b767f1a2e57597512b18e1638f21235fa5928c

/-- "thepassword". -/
def thepassword : List Byte := hex 11 0x74686570617373776f7264

/-- An Encryptor and a Decryptor context under K1, K2, V. -/
def encKeys : State := State.reset.loadCtx .enc .keys (Bytes.zero 8) (Bytes.zero 8) V K1 K2
def decKeys : State := State.reset.loadCtx .dec .keys (Bytes.zero 8) (Bytes.zero 8) V K1 K2

/-- A context with V2.2's salts and IV; the keys of V1.7a and V1.7b stand in the registers. -/
def encPassword : State :=
  State.reset.loadCtx .enc .password (hexN 8 0x0203040506070001) (hexN 8 0x0304050607080102)
    (hexN 16 0x0405060708090a0b0c0d0e0f00010203)
    (hexN 32 0xfddef208c5170070a512098d93b722e927c5484423209db27fbc9902b3d68f84)
    (hexN 32 0xf8bb5320486c68ca3c715e439300492d585d061df91b6980dc10eedb5b06d360)

/-- The capacities of program P5. -/
def small : Config := ⟨8, 32, by decide, by decide, by decide, by decide⟩

/-- A state with one packet waiting. -/
def given (s : State) (p : List Byte) : State := { s with inputs := [.packet p] }

/-- What a step answered and what STATUS reads after it; `none` if it did not go on. -/
def seen : Host.Outcome State Fault Refusal → Option (List (List Byte) × Byte)
  | .next t => some (t.rsp, t.statusByte)
  | _ => none

/-- The state after a step. -/
def after : Host.Outcome State Fault Refusal → Option State
  | .next t => some t
  | _ => none

/-! ## WellFormed refuses, one ill-formed term per check -/

/-- A byte string that no length field can hold. -/
@[irreducible] def tooLong : List Byte := List.replicate (2 ^ 32) 0

theorem tooLong_length : tooLong.length = 2 ^ 32 := by
  delta tooLong
  exact List.length_replicate

theorem tooLong_unfit : fitsLengthField tooLong = false :=
  decide_eq_false (by rw [tooLong_length]; exact Nat.lt_irrefl _)

theorem smoke_encBuildPw :
    WellFormed (.encBuildPw tooLong (Bytes.zero 8) (Bytes.zero 8) (Bytes.zero 16)) = false := by
  simp [WellFormed, tooLong_unfit]
theorem smoke_encrypt : WellFormed (.encrypt tooLong) = false := by
  simp [WellFormed, tooLong_unfit]
theorem smoke_encryptMsg_password : WellFormed (.encryptMsg tooLong []) = false := by
  simp [WellFormed, tooLong_unfit]
theorem smoke_encryptMsg_plaintext : WellFormed (.encryptMsg [] tooLong) = false := by
  simp [WellFormed, tooLong_unfit]
theorem smoke_decBuildPw_password : WellFormed (.decBuildPw tooLong []) = false := by
  simp [WellFormed, tooLong_unfit]
theorem smoke_decBuildPw_message : WellFormed (.decBuildPw [] tooLong) = false := by
  simp [WellFormed, tooLong_unfit]
theorem smoke_decBuildKeys : WellFormed (.decBuildKeys K1 K2 tooLong) = false := by
  simp [WellFormed, tooLong_unfit]
theorem smoke_decrypt : WellFormed (.decrypt tooLong) = false := by
  simp [WellFormed, tooLong_unfit]
theorem smoke_decryptMsg_password : WellFormed (.decryptMsg tooLong []) = false := by
  simp [WellFormed, tooLong_unfit]
theorem smoke_decryptMsg_message : WellFormed (.decryptMsg [] tooLong) = false := by
  simp [WellFormed, tooLong_unfit]
theorem smoke_kdf : WellFormed (.kdf tooLong (Bytes.zero 8)) = false := by
  simp [WellFormed, tooLong_unfit]
theorem smoke_tag : WellFormed (.tag K1 tooLong) = false := by
  simp [WellFormed, tooLong_unfit]
theorem smoke_cteq_a : WellFormed (.cteq tooLong []) = false := by simp [WellFormed, tooLong_unfit]
theorem smoke_cteq_b : WellFormed (.cteq [] tooLong) = false := by simp [WellFormed, tooLong_unfit]

/-! ## Decoding, every packet written out (R78; 95 section 3.5) -/

theorem test_decode_getStatus : decode [0x00] = .ok .getStatus := by decide
theorem test_decode_clear : decode [0x01] = .ok .clear := by decide
theorem test_decode_getHdr : decode [0x02] = .ok .getHdr := by decide
theorem test_decode_encBuildPw :
    decode (0x10 :: hex 4 11 ++ thepassword ++ hex 8 0x0203040506070001 ++
      hex 8 0x0304050607080102 ++ hex 16 0x0405060708090a0b0c0d0e0f00010203) =
      .ok (.encBuildPw thepassword (hexN 8 0x0203040506070001) (hexN 8 0x0304050607080102)
        (hexN 16 0x0405060708090a0b0c0d0e0f00010203)) := by decide +kernel
theorem test_decode_encBuildKeys :
    decode (0x11 :: hex 32 0x000102030405060708090a0b0c0d0e0f101112131415161718191a1b1c1d1e1f ++
      hex 32 0x202122232425262728292a2b2c2d2e2f303132333435363738393a3b3c3d3e3f ++
      hex 16 0x000102030405060708090a0b0c0d0e0f) = .ok (.encBuildKeys K1 K2 V) := by decide +kernel
theorem test_decode_encrypt :
    decode (hex 17 0x120000000c0123456789abcdef01234567) =
      .ok (.encrypt (hex 12 0x0123456789abcdef01234567)) := by decide +kernel
theorem test_decode_encrypt_empty : decode [0x12, 0, 0, 0, 0] = .ok (.encrypt []) := by decide
theorem test_decode_encryptMsg :
    decode (hex 10 0x13000000016100000000) = .ok (.encryptMsg [0x61] []) := by decide +kernel
theorem test_decode_decBuildPw :
    decode (hex 9 0x200000000000000042 ++ M1) = .ok (.decBuildPw [] M1) := by decide +kernel
theorem test_decode_decBuildKeys :
    decode (0x21 :: K1.val ++ K2.val ++ hex 4 0x42 ++ M1) = .ok (.decBuildKeys K1 K2 M1) := by
  decide +kernel
theorem test_decode_decrypt : decode (hex 5 0x2200000042 ++ M1) = .ok (.decrypt M1) := by
  decide +kernel
theorem test_decode_decryptMsg :
    decode (hex 5 0x230000000b ++ thepassword ++ hex 4 0x52 ++ V22) =
      .ok (.decryptMsg thepassword V22) := by decide +kernel
theorem test_decode_kdf :
    decode (hex 19 0x30000000067365637265746465616462656566) =
      .ok (.kdf (hex 6 0x736563726574) (hexN 8 0x6465616462656566)) := by decide +kernel
theorem test_decode_tag :
    decode (0x31 :: hex 32 0 ++ [0, 0, 0, 0]) = .ok (.tag (Bytes.zero 32) []) := by decide +kernel
theorem test_decode_cteq :
    decode (hex 12 0x3200000002aabb00000001aa) = .ok (.cteq [0xaa, 0xbb] [0xaa]) := by
  decide +kernel

theorem test_illegal_empty : decode [] = .error .emptyPacket := by decide
theorem test_illegal_opcodes :
    decode [0x03] = .error (.unknownOpcode 0x03) ∧ decode [0xff] = .error (.unknownOpcode 0xff) ∧
    decode [0x14] = .error (.unknownOpcode 0x14) ∧ decode [0x92, 0, 0, 0, 0] = .error (.unknownOpcode 0x92) := by
  decide
theorem test_illegal_trailing :
    decode [0x00, 0x00] = .error .trailingBytes ∧
    decode (hex 7 0x120000000100ff) = .error .trailingBytes := by decide +kernel
theorem test_illegal_no_length :
    decode [0x12] = .error .lengthCutShort ∧ decode (hex 4 0x12000000) = .error .lengthCutShort := by
  decide +kernel
theorem test_illegal_short_var : decode (hex 7 0x1200000005aabb) = .error .variableCutShort := by
  decide +kernel
theorem test_illegal_short_salt :
    decode (hex 18 0x300000000673656372657464656164626565) = .error .fixedCutShort := by
  decide +kernel
theorem test_illegal_80_bytes : decode (0x11 :: List.replicate 79 0) = .error .fixedCutShort := by
  decide +kernel

/-- The empty line of R88's form, its example and an expected response. -/
theorem test_assemble_example :
    assemble ("ENC_BUILD_PW \"thepassword\", x\"0203040506070001\", x\"0304050607080102\", ".toList ++
      "x\"04050607 08090a0b 0c0d0e0f 00010203\" # R88".toList) =
      some (0x10 :: hex 4 11 ++ thepassword ++ hex 8 0x0203040506070001 ++
        hex 8 0x0304050607080102 ++ hex 16 0x0405060708090a0b0c0d0e0f00010203) := by decide +kernel
theorem test_assemble_refuses :
    assemble "KDF \"secret\", x\"00\"".toList = none ∧ assemble "NOP".toList = none ∧
    assemble "ENCRYPT".toList = none ∧ assemble "CLEAR x\"\"".toList = none := by decide +kernel
theorem test_expected :
    expected "-> OK x\"01\"".toList = some (hex 6 0x000000000101) ∧
    expected "-> ERR_HMAC".toList = some (hex 5 0x0200000000) := by decide +kernel

/-! ## The functions (95 sections 3.1 to 3.3) -/

theorem test_sha1_abc : sha1 (hex 3 0x616263) = hex 20 0xa9993e364706816aba3e25717850c26c9cd0d89d := by
  decide +kernel
theorem test_sha1_56 :
    sha1 (List.replicate 56 0x61) = hex 20 0xc2db330f6083854c99d4b5bfb6e8f29f201be699 := by
  decide +kernel
theorem test_hmacSha1_long_key :
    hmacSha1 (List.replicate 65 0x6b) (hex 3 0x6d7367) =
      hex 20 0xb75a0671ed2de039c033e5440f4bf8564f37fefe := by decide +kernel
/-- V1.3. -/
theorem test_pbkdf2_two :
    pbkdf2 (hex 6 0x736563726574) (hex 8 0x6465616462656566) 2 =
      hex 32 0x9896406319670e13bfc276f60104febdcb3fcd21122a3b8f0351b39424edc33c := by decide +kernel
/-- V4.2. -/
theorem test_sha256_abc :
    sha256 (hex 3 0x616263) =
      hex 32 0xba7816bf8f01cfea414140de5dae2223b00361a396177a9cb410ff61f20015ad := by decide +kernel
/-- V4.3. -/
theorem test_sha256_56 :
    sha256 (List.replicate 56 0x61) =
      hex 32 0xb35439a4ac6f0948b6d6f9e3c6af0f5f590ce20f1bde7090ef7970686ec6738a := by decide +kernel
/-- V4.6. -/
theorem test_tag_header_only :
    macTag K2 keyHeader [] =
      hex 32 0x6a5d638acfa0a3515bce03cd01f34093c62779fcdc3b3516d50b4219ced395b5 := by decide +kernel
/-- V3.1, FIPS 197 C.3. -/
theorem test_blockEnc :
    (blockEnc K1 (hexN 16 0x00112233445566778899aabbccddeeff)).val =
      hex 16 0x8ea2b7ca516745bfeafc49904b496089 := by decide +kernel
/-- V3.4. -/
theorem test_blockDec : (blockDec K1 V).val = hex 16 0x913dbce5493afdc05772858aad4a4432 := by
  decide +kernel
/-- V3.11. -/
theorem test_encryptBody_17 :
    encryptBody K1 V (hex 17 0x000102030405060708090a0b0c0d0e0f10) =
      hex 32 0xf29000b62a499fd0a9f39a6add2e7780ae2c7b7cc6473eb497cabbd193c6174e := by decide +kernel
/-- V3.7. -/
theorem test_encryptBody_empty :
    encryptBody K1 V [] = hex 16 0xe9c3ef8ab23453e6f0749cd636e7a88e := by decide +kernel
theorem test_pad :
    pad [] = List.replicate 16 0x10 ∧ pad (List.replicate 15 0) = List.replicate 15 0 ++ [1] ∧
    pad (List.replicate 16 0) = List.replicate 16 0 ++ List.replicate 16 0x10 := by decide
theorem test_unpad :
    unpad (List.replicate 16 0x10) = some [] ∧
    unpad (List.replicate 14 0xaa ++ [0x02, 0x02]) = some (List.replicate 14 0xaa) ∧
    unpad (List.replicate 14 0xaa ++ [0x01, 0x02]) = none ∧
    unpad (List.replicate 15 0xaa ++ [0x00]) = none ∧
    unpad (List.replicate 15 0xaa ++ [0x11]) = none ∧ unpad [] = none := by decide
theorem test_ctEq :
    ctEq [] [] = true ∧ ctEq [] [0x00] = false ∧ ctEq [0xaa, 0xbb] [0xaa] = false ∧
    ctEq [0xaa] [0xaa, 0xbb] = false ∧ ctEq [0xaa, 0xbb] [0xaa, 0xbb] = true ∧
    ctEq [0xaa, 0xbb] [0xaa, 0xba] = false ∧ ctEq [0x2a, 0xbb] [0xaa, 0xbb] = false := by decide
/-- The rows of 95 section 3.4 for the parser: length first, then version, then mode. -/
theorem test_parseHeader :
    parseHeader V22 .password = .ok ⟨hexN 8 0x0203040506070001, hexN 8 0x0304050607080102,
      hexN 16 0x0405060708090a0b0c0d0e0f00010203⟩ ∧
    parseHeader M1 .keys = .ok ⟨Bytes.zero 8, Bytes.zero 8, V⟩ ∧
    parseHeader M1 .password = .error .format ∧ parseHeader V22 .keys = .error .format ∧
    parseHeader (M1.take 65) .keys = .error .shortInput ∧
    parseHeader ([0x09, 0x09] ++ List.replicate 64 0) .password = .error .format ∧
    parseHeader ([0x09, 0x09] ++ List.replicate 8 0) .password = .error .shortInput := by
  decide +kernel

/-! ## One step each (R212 to R221, R109, R178, R179; P1 to P5) -/

/-- R212's example: after a DECRYPT that failed the tag check in a key-pair Decryptor context. -/
theorem test_getStatus :
    seen (step (given { decKeys with lasterr := .hmac } [0x00])) =
      some ([hex 6 0x000000000122], 0x22) := by decide +kernel
/-- R213's example: STATUS a0 becomes 80. -/
theorem test_clear :
    seen (step (given { decKeys with eq := true } [0x01])) = some ([hex 5 0], 0x80) := by
  decide +kernel
/-- P1 step 4. -/
theorem test_getHdr_password :
    seen (step (given encPassword [0x02])) =
      some ([hex 5 0x22 ++ hex 34 0x0301020304050607000103040506070801020405060708090a0b0c0d0e0f00010203],
        0x50) := by decide +kernel
theorem test_getHdr_none :
    seen (step (given State.reset [0x02])) = some ([hex 5 0x0900000000], 0x09) := by decide +kernel
/-- P5 step 6, and the empty password of R214. -/
theorem test_encBuildPw_refused :
    seen (exec (.encBuildPw (hex 9 0x313233343536373839) (Bytes.zero 8) (Bytes.zero 8) V)
      { encKeys with cfg := small }) = some ([hex 5 0x0400000000], 0x04) ∧
    seen (exec (.encBuildPw [] (Bytes.zero 8) (Bytes.zero 8) V) encKeys) =
      some ([hex 5 0x0400000000], 0x04) := by decide +kernel
/-- P3 step 1. -/
theorem test_encBuildKeys :
    after (exec (.encBuildKeys K1 K2 V) State.reset) = some { encKeys with rsp := [hex 5 0] } := by
  decide +kernel
/-- R216's example. -/
theorem test_encrypt :
    seen (exec (.encrypt (hex 5 0x68656c6c6f)) encKeys) = some ([hex 5 0x42 ++ M1], 0x10) := by
  decide +kernel
/-- P1 step 5: the "thepassword" fixture (S4), from the keys V1.7a and V1.7b. -/
theorem test_encrypt_fixture :
    seen (exec (.encrypt (hex 12 0x0123456789abcdef01234567)) encPassword) =
      some ([hex 5 0x52 ++ V22], 0x50) := by decide +kernel
/-- P4b: the second draw fails; two draws made, the context gone. -/
theorem test_encryptMsg_rng :
    after (exec (.encryptMsg thepassword (hex 12 0x0123456789abcdef01234567))
      { encKeys with rng := [.ok V, .fail, .ok V] }) =
    some { State.reset with lasterr := .rng, rsp := [hex 5 0x0600000000], rng := [.ok V], draws := 2 } := by
  decide +kernel
/-- P4c: the empty password is refused before any draw. -/
theorem test_encryptMsg_empty :
    after (exec (.encryptMsg [] (hex 12 0x0123456789abcdef01234567)) { State.reset with rng := [.ok V] }) =
    some { State.reset with lasterr := .inputSize, rsp := [hex 5 0x0400000000], rng := [.ok V] } := by
  decide +kernel
/-- P5 steps 7 to 10: capacity, then length, then version, then mode. -/
theorem test_decBuildPw_order :
    seen (exec (.decBuildPw (hex 9 0x313233343536373839) (List.replicate 10 0)) { State.reset with cfg := small }) =
      some ([hex 5 0x0400000000], 0x04) ∧
    seen (exec (.decBuildPw (hex 8 0x3132333435363738) (List.replicate 10 0)) { State.reset with cfg := small }) =
      some ([hex 5 0x0500000000], 0x05) ∧
    seen (exec (.decBuildPw (hex 8 0x3132333435363738) ([0x09, 0x09] ++ List.replicate 64 0))
      { State.reset with cfg := small }) = some ([hex 5 0x0800000000], 0x08) ∧
    seen (exec (.decBuildPw (hex 8 0x3132333435363738) ([0x03, 0x09] ++ List.replicate 64 0))
      { State.reset with cfg := small }) = some ([hex 5 0x0800000000], 0x08) := by decide +kernel
/-- R219's example. -/
theorem test_decBuildKeys :
    after (exec (.decBuildKeys K1 K2 M1) State.reset) = some { decKeys with rsp := [hex 5 0] } := by
  decide +kernel
/-- 95 section 3.6, sixth row: the header bytes of the operand are not read. -/
theorem test_decrypt_ok :
    seen (exec (.decrypt ((M1.set 0 0x09).set 5 0xfc)) decKeys) =
      some ([hex 10 0x000000000568656c6c6f], 0xa0) := by decide +kernel
/-- 95 section 3.6: each error of DECRYPT. -/
theorem test_decrypt_errors :
    seen (exec (.decrypt (M1.set 20 0x2c)) decKeys) = some ([hex 5 0x0200000000], 0x22) ∧
    seen (exec (.decrypt (M1.take 49)) { decKeys with eq := true }) =
      some ([hex 5 0x0300000000], 0xa3) ∧
    seen (exec (.decrypt B1) decKeys) = some ([hex 5 0x0700000000], 0xa7) ∧
    seen (exec (.decrypt B5) decKeys) = some ([hex 5 0x0700000000], 0xa7) := by decide +kernel
/-- P2 steps 3 and 8. -/
theorem test_decryptMsg_refused :
    seen (exec (.decryptMsg thepassword (V22.set 0 0x02)) encKeys) =
      some ([hex 5 0x0800000000], 0x08) ∧
    seen (exec (.decryptMsg [] (V22.take 65)) encKeys) = some ([hex 5 0x0500000000], 0x05) := by
  decide +kernel
/-- R109: a password over capacity. -/
theorem test_kdf_refused :
    seen (exec (.kdf (List.replicate 9 0x61) (Bytes.zero 8)) { encKeys with cfg := small }) =
      some ([hex 5 0x0400000000], 0x14) := by decide +kernel
/-- V4.5: the key is the operand, not HKEY. -/
theorem test_tag :
    seen (exec (.tag (Bytes.zero 32) []) encKeys) =
      some ([hex 5 0x20 ++ hex 32 0xb613679a0814d9ec772f95d778c35fc5ff1697c493715653c6c712144292c5ad],
        0x10) := by decide +kernel
/-- 95 section 3.3, rows 3 and 5. -/
theorem test_cteq :
    seen (exec (.cteq [0xaa, 0xbb] [0xaa]) { State.reset with eq := true }) =
      some ([hex 6 0x000000000100], 0x00) ∧
    seen (exec (.cteq [0xaa, 0xbb] [0xaa, 0xbb]) State.reset) =
      some ([hex 6 0x000000000101], 0x80) := by decide +kernel
/-- R261: an illegal packet changes LASTERR only. -/
theorem test_illegal_keeps_context :
    after (step (given encKeys [0x12])) =
      some { encKeys with lasterr := .illegalCmd, rsp := [hex 5 0x0a00000000] } := by decide +kernel
/-- P5 steps 2 to 5: capacity before context. -/
theorem test_capacity_first :
    seen (exec (.encrypt (List.replicate 33 0)) { State.reset with cfg := small }) =
      some ([hex 5 0x0400000000], 0x04) ∧
    seen (exec (.encrypt (List.replicate 32 0)) { State.reset with cfg := small }) =
      some ([hex 5 0x0900000000], 0x09) ∧
    seen (exec (.decrypt (List.replicate 115 0)) { State.reset with cfg := small }) =
      some ([hex 5 0x0400000000], 0x04) ∧
    seen (exec (.decrypt (List.replicate 114 0)) { State.reset with cfg := small }) =
      some ([hex 5 0x0900000000], 0x09) := by decide +kernel
/-- R280: reset between commands clears EQ too, and what was sent stays sent. -/
theorem test_reset :
    after (step { decKeys with eq := true, lasterr := .unpad, rsp := [hex 5 0], inputs := [.reset] }) =
      some { State.reset with rsp := [hex 5 0] } := by decide +kernel
/-- The host's question: a table word of one opcode byte runs as the first instruction. -/
theorem test_withFetchWord :
    step (State.reset.withFetchWord 8 0x32) = exec (.cteq [] []) State.reset := rfl

/-! ## Witnesses: states and operands that meet the hypotheses of each obligation -/

/-- An Encryptor context built from the password "a". -/
def encA : State :=
  State.reset.loadPassword .enc [0x61] (Bytes.zero 8) (hexN 8 1) (Bytes.zero 16)

/-- Three draws that succeed. -/
def drawing : State := { State.reset with rng := [.ok V, .ok V, .ok V] }

@[simp] theorem reset_maxPw : State.reset.cfg.maxPw = 1024 := rfl
@[simp] theorem reset_maxData : State.reset.cfg.maxData = 65536 := rfl
@[simp] theorem encKeys_cfg : encKeys.cfg = State.reset.cfg := rfl
@[simp] theorem decKeys_cfg : decKeys.cfg = State.reset.cfg := rfl
@[simp] theorem encA_cfg : encA.cfg = State.reset.cfg := rfl
@[simp] theorem drawing_cfg : drawing.cfg = State.reset.cfg := rfl
@[simp] theorem encKeys_ctx : encKeys.ctx = .enc := rfl
@[simp] theorem decKeys_ctx : decKeys.ctx = .dec := rfl
@[simp] theorem decKeys_mode : decKeys.mode = .keys := rfl
@[simp] theorem encA_mode : encA.mode = .password := rfl

/-- The least message of each mode: a header and 32 or 48 bytes. -/
def leastPassword : List Byte := [0x03, 0x01] ++ List.replicate 64 0
def leastKeys : List Byte := [0x03, 0x00] ++ List.replicate 64 0

/-- Zero bytes. -/
def zeros (n : Nat) : List Byte := List.replicate n 0

@[simp] theorem zeros_length (n : Nat) : (zeros n).length = n := List.length_replicate

/-- A message of `MAX_MSG` bytes and one byte more, for the reset capacities. -/
def longest (mode : Byte) : List Byte := 0x03 :: mode :: zeros 65616
def tooLongMessage : List Byte := zeros 65619

@[simp] theorem longest_length (mode : Byte) : (longest mode).length = 65618 := by
  rw [longest, List.length_cons, List.length_cons, zeros_length]
@[simp] theorem tooLongMessage_length : tooLongMessage.length = 65619 := zeros_length _

theorem witness_DecodeOfEncodeIsTheCommand (b : List Byte) (h : b.length = 2 ^ 32 - 1) :
    WellFormed (.cteq b []) = true ∧ WellFormed .clear = true := by
  simp [WellFormed, fitsLengthField, h]
theorem witness_EncodeOfDecodeIsThePacket : decode [0x01] = .ok .clear := by decide
theorem witness_UnmappedOpcodesAreIllegal :
    [0x03, 0x14, 0x33, 0xff].all (fun x => !([0x00, 0x01, 0x02, 0x10, 0x11, 0x12, 0x13, 0x20, 0x21, 0x22,
      0x23, 0x30, 0x31, 0x32].contains x)) = true := by decide
theorem witness_StepRunsDecodedCommand :
    (given encKeys [0x00]).inputs = .packet [0x00] :: [] ∧ decode [0x00] = .ok .getStatus :=
  ⟨rfl, by decide⟩
/-- Also for BuiltContextIsImmutable, SequencingTable and StateAfterAnError, their second parts. -/
theorem witness_IllegalPacketChangesOnlyLasterr :
    (given encKeys [0x12]).inputs = .packet [0x12] :: [] ∧ decode [0x12] = .error .lengthCutShort :=
  ⟨rfl, by decide⟩
theorem witness_ResetEventResetsEveryRegister :
    ({ encKeys with inputs := [.reset] }).inputs = .reset :: [] ∧
    ({ encKeys with inputs := [.resetDuring [0x13] 2] }).inputs = .resetDuring [0x13] 2 :: [] :=
  ⟨rfl, rfl⟩
theorem witness_StepKeepsContextInvariants_empty :
    State.reset.CtxInv ∧ ∃ t, step State.reset = .next t :=
  ⟨⟨fun _ => ⟨rfl, rfl, rfl, rfl, rfl, rfl, rfl⟩, fun h => absurd rfl h, fun h => absurd rfl h⟩, _, rfl⟩
theorem witness_StepKeepsContextInvariants_keys :
    (given encKeys [0x00]).CtxInv ∧ ∃ t, step (given encKeys [0x00]) = .next t :=
  ⟨⟨fun h => (Ctx.noConfusion h), fun _ _ => ⟨rfl, rfl⟩, fun _ h => (Mode.noConfusion h)⟩, _, rfl⟩
theorem witness_StepKeepsContextInvariants_password :
    (given encA [0x00]).CtxInv ∧ ∃ t, step (given encA [0x00]) = .next t :=
  ⟨⟨fun h => (Ctx.noConfusion h), fun _ h => (Mode.noConfusion h), fun _ _ => ⟨[0x61], rfl, rfl⟩⟩, _, rfl⟩
theorem witness_BuildsStartFromTheEmptyContext :
    ∃ t, exec (.encBuildPw [] (Bytes.zero 8) (Bytes.zero 8) V) encKeys = .next t ∧ t.lasterr ≠ .ok :=
  ⟨_, rfl, by decide⟩
theorem witness_EmptyContextRegistersAreNotRead : State.reset.ctx = .none := rfl
theorem witness_KeysReachOnlyEncryptAndDecrypt :
    (∀ pt, Instr.getHdr ≠ .encrypt pt) ∧ (∀ m, Instr.getHdr ≠ .decrypt m) :=
  ⟨fun _ h => (Instr.noConfusion h), fun _ h => (Instr.noConfusion h)⟩
theorem witness_OnlyEncryptMsgDraws :
    (∀ pw pt, Instr.clear ≠ .encryptMsg pw pt) ∧ dueInputSize State.reset.cfg (.encryptMsg [] []) ∧
    ¬ dueInputSize State.reset.cfg (.encryptMsg [0x61] []) :=
  ⟨fun _ _ h => (Instr.noConfusion h), .inr (.inr rfl), by simp [dueInputSize]⟩
theorem witness_GetStatusResult :
    encKeys.eq = false ∧ encKeys.mode = .keys ∧ encKeys.ctx = .enc ∧ encKeys.lasterr = .ok ∧
    ({ decKeys with lasterr := .hmac }).ctx = .dec ∧ ({ decKeys with lasterr := .hmac }).eq = false ∧
    ({ decKeys with lasterr := .hmac }).mode = .keys := ⟨rfl, rfl, rfl, rfl, rfl, rfl, rfl⟩
theorem witness_ClearResult : ({ decKeys with eq := true }).statusByte = 0xa0 := by decide
theorem witness_GetHdrResult :
    State.reset.ctx = .none ∧ (encPassword.ctx ≠ .none ∧ encPassword.mode = .password) ∧
    (decKeys.ctx ≠ .none ∧ decKeys.mode = .keys) := by decide
theorem witness_EncBuildPwResult :
    (1 ≤ [(0x61 : Byte)].length ∧ [(0x61 : Byte)].length ≤ State.reset.cfg.maxPw) ∧
    (zeros 1024).length ≤ State.reset.cfg.maxPw ∧
    State.reset.cfg.maxPw < (zeros 1025).length ∧ ([] : List Byte).length = 0 := by
  simp
/-- Also for EncryptPayloadLayout. -/
theorem witness_EncryptResult :
    ((zeros 65536).length ≤ encKeys.cfg.maxData ∧ encKeys.ctx = .enc) ∧
    encKeys.cfg.maxData < (zeros 65537).length ∧
    (([] : List Byte).length ≤ decKeys.cfg.maxData ∧ decKeys.ctx ≠ .enc) := by
  simp
/-- Also for EncryptMsgIsBuildThenEncrypt and OneShotRoundTrip. -/
theorem witness_EncryptMsgResult :
    1 ≤ [(0x61 : Byte)].length ∧ [(0x61 : Byte)].length ≤ drawing.cfg.maxPw ∧
    (zeros 65536).length ≤ drawing.cfg.maxData ∧ drawing.answer 0 = .ok V ∧
    drawing.answer 1 = .ok V ∧ drawing.answer 2 = .ok V := by
  simp [drawing, State.answer]
/-- The three clauses: refused, and the first failing draw the first, the second or the third. -/
theorem witness_EncryptMsgErrors :
    State.reset.cfg.maxPw < (zeros 1025).length ∧
    ({ State.reset with rng := [.fail] }).answer 0 = .fail ∧
    (∀ j, j < 2 → ({ State.reset with rng := [.ok V, .ok V, .fail] }).answer j ≠ .fail) ∧
    ({ State.reset with rng := [.ok V, .ok V, .fail] }).answer 2 = .fail := by
  refine ⟨by simp, rfl, fun j h => ?_, rfl⟩
  obtain rfl | rfl : j = 0 ∨ j = 1 := by omega
  all_goals simp [State.answer]
/-- Also for the first part of DecryptorHeaderIsTheReceivedOne. -/
theorem witness_DecBuildPwResult :
    (([] : List Byte).length ≤ State.reset.cfg.maxPw ∧ 66 ≤ leastPassword.length ∧
      leastPassword.length ≤ State.reset.cfg.maxData + 82 ∧ leastPassword.getD 0 0 = 0x03 ∧
      leastPassword.getD 1 0 = 0x01) ∧
    (longest 1).length ≤ State.reset.cfg.maxData + 82 ∧
    dueInputSize State.reset.cfg (.decBuildPw [] tooLongMessage) ∧
    dueShortInput State.reset.cfg (.decBuildPw [] (zeros 65)) ∧
    dueFormat State.reset.cfg (.decBuildPw [] leastKeys) := by
  simp [leastPassword, leastKeys, dueInputSize,
    dueShortInput, dueFormat]
/-- Also for the second part of DecryptorHeaderIsTheReceivedOne. -/
theorem witness_DecBuildKeysResult :
    (66 ≤ leastKeys.length ∧ leastKeys.length ≤ State.reset.cfg.maxData + 82 ∧
      leastKeys.getD 0 0 = 0x03 ∧ leastKeys.getD 1 0 = 0x00) ∧
    (longest 0).length ≤ State.reset.cfg.maxData + 82 ∧
    dueInputSize State.reset.cfg (.decBuildKeys K1 K2 tooLongMessage) ∧
    dueShortInput State.reset.cfg (.decBuildKeys K1 K2 (zeros 65)) ∧
    dueFormat State.reset.cfg (.decBuildKeys K1 K2 leastPassword) := by
  simp [leastPassword, leastKeys, dueInputSize,
    dueShortInput, dueFormat]
theorem witness_DecryptResult_plaintext :
    reachesTag decKeys (.decrypt M1) K2 (M1.take 34) K1 V (slice M1 18 34) (M1.drop 34) ∧
    M1.drop 34 = hmacSha256 K2.val (M1.take 34) ∧
    decryptBody K1 V (slice M1 18 34) = some (hex 5 0x68656c6c6f) := by
  unfold reachesTag
  decide +kernel
/-- The least operand that reaches the comparison: 50 bytes, no ciphertext, a genuine tag. -/
theorem witness_DecryptResult_padding :
    reachesTag decKeys (.decrypt B5) K2 keyHeader K1 V [] (B5.drop 18) ∧
    B5.drop 18 = hmacSha256 K2.val keyHeader ∧ decryptBody K1 V [] = none := by
  unfold reachesTag
  decide +kernel
theorem witness_DecryptResult_tag :
    reachesTag decKeys (.decrypt (B5.set 49 0)) K2 keyHeader K1 V [] ((B5.set 49 0).drop 18) ∧
    (B5.set 49 0).drop 18 ≠ hmacSha256 K2.val keyHeader := by
  unfold reachesTag
  decide +kernel
theorem witness_DecryptEarlyErrors :
    dueInputSize decKeys.cfg (.decrypt tooLongMessage) ∧ dueSequence encKeys (.decrypt []) ∧
    dueNoTag decKeys (.decrypt (zeros 49)) ∧
    dueNoTag { encA with ctx := .dec } (.decrypt (zeros 65)) := by
  simp [dueInputSize, dueSequence, dueNoTag]
theorem witness_DecryptIgnoresOperandHeader :
    M1.length = (M1.set 17 0xff).length ∧
    M1.drop (if decKeys.mode = .password then 34 else 18) =
      (M1.set 17 0xff).drop (if decKeys.mode = .password then 34 else 18) := by decide +kernel

/-- The header of a password message with zero salts and a zero IV, and the keys it calls for. -/
def zeroHeader : List Byte := [0x03, 0x01] ++ List.replicate 32 0

/-- A password message with a given ciphertext and its genuine tag. -/
def genuine (pw ct : List Byte) : List Byte :=
  zeroHeader ++ ct ++ hmacSha256 (kdf pw (Bytes.zero 8)).val (zeroHeader ++ ct)

theorem genuine_reaches (pw ct : List Byte) (hp : pw.length ≤ 1024) (hc : ct.length ≤ 65536) :
    reachesTag State.reset (.decryptMsg pw (genuine pw ct)) (kdf pw (Bytes.zero 8)) (zeroHeader ++ ct)
      (kdf pw (Bytes.zero 8)) (Bytes.zero 16) ct
      (hmacSha256 (kdf pw (Bytes.zero 8)).val (zeroHeader ++ ct)) := by
  have hz : zeroHeader.length = 34 := by simp [zeroHeader]
  have hl : (genuine pw ct).length = 34 + ct.length + 32 := by simp [genuine, hz, Nat.add_assoc]
  have hs : (genuine pw ct).length - 32 = (zeroHeader ++ ct).length := by
    rw [hl, List.length_append, hz]
    omega
  refine ⟨hp, by rw [hl]; show _ ≤ 65536 + 82; omega, by omega, rfl, rfl, rfl, rfl, rfl, ?_, ?_, ?_⟩
  · rw [slice, hs, genuine, List.append_assoc, ← hz, List.drop_left, List.length_append]
    simp
  · rw [hs, genuine, List.take_left]
  · rw [hs, genuine, List.drop_left]

/-- One padded block opens again, whatever the key: what the next witness needs. -/
theorem emptyPlaintext_opens (key : Bytes 32) (v : Bytes 16) :
    decryptBody key v (encryptBody key v []) = some [] := by
  have fold : ∀ (ks : List AesState) (s : AesState),
      ks.reverse.foldl decRound (shiftRows (subBytes (ks.foldl encRound s))) = shiftRows (subBytes s) := by
    intro ks
    induction ks with
    | nil => intro s; rfl
    | cons k ks ih => intro s; simp [ih, decRound_encRound]
  have e : encryptBody key v [] = joinBlocks (cbcEncBlocks key v [⟨List.replicate 16 0x10, rfl⟩]) := rfl
  rw [decryptBody, if_neg (by rw [e]; simp), e]
  unfold cbcDec
  rw [blocks16_joinBlocks]
  simp only [cbcEncBlocks, cbcDecBlocks]
  rw [show blockDec key (blockEnc key (xorBlock ⟨List.replicate 16 0x10, rfl⟩ v)) =
    xorBlock ⟨List.replicate 16 0x10, rfl⟩ v by simp [blockDec, blockEnc, fold], xorBlock_cancel]
  decide

theorem witness_DecryptMsgResult_plaintext :
    ∃ (pw m : List Byte) (hk : Bytes 32) (signed : List Byte) (ek : Bytes 32) (v : Bytes 16)
      (ct tag : List Byte), reachesTag State.reset (.decryptMsg pw m) hk signed ek v ct tag ∧
      tag = hmacSha256 hk.val signed ∧ decryptBody ek v ct = some [] :=
  ⟨[], genuine [] (encryptBody (kdf [] (Bytes.zero 8)) (Bytes.zero 16) []), _, _, _, _, _, _,
    genuine_reaches [] _ (by simp) (by rw [encryptBody_eq]; simp [cbcEnc, pad_length]), rfl,
    emptyPlaintext_opens _ _⟩
/-- Also the last clause of TagAndPaddingErrorsExactlyWhenDue, at the least length. -/
theorem witness_DecryptMsgResult_padding :
    ∃ (pw m : List Byte) (hk : Bytes 32) (signed : List Byte) (ek : Bytes 32) (v : Bytes 16)
      (ct tag : List Byte), reachesTag State.reset (.decryptMsg pw m) hk signed ek v ct tag ∧
      tag = hmacSha256 hk.val signed ∧ decryptBody ek v ct = none :=
  ⟨[], genuine [] [], _, _, _, _, _, _, genuine_reaches [] [] (by simp) (by simp), rfl, rfl⟩
theorem witness_DecryptMsgResult_tag :
    ∃ (pw m : List Byte) (hk : Bytes 32) (signed : List Byte) (ek : Bytes 32) (v : Bytes 16)
      (ct tag : List Byte), reachesTag State.reset (.decryptMsg pw m) hk signed ek v ct tag ∧
      tag ≠ hmacSha256 hk.val signed := by
  by_cases h : List.replicate 32 (0 : Byte) = hmacSha256 (kdf [] (Bytes.zero 8)).val zeroHeader
  · refine ⟨[], zeroHeader ++ List.replicate 32 1, kdf [] (Bytes.zero 8), zeroHeader,
      kdf [] (Bytes.zero 8), Bytes.zero 16, [], List.replicate 32 1, ?_, ?_⟩
    · exact ⟨Nat.zero_le _, by decide, by decide, rfl, rfl, rfl, rfl, rfl, rfl, rfl, rfl⟩
    · rw [← h]
      decide
  · refine ⟨[], zeroHeader ++ List.replicate 32 0, kdf [] (Bytes.zero 8), zeroHeader,
      kdf [] (Bytes.zero 8), Bytes.zero 16, [], List.replicate 32 0, ?_, h⟩
    exact ⟨Nat.zero_le _, by decide, by decide, rfl, rfl, rfl, rfl, rfl, rfl, rfl, rfl⟩
theorem witness_DecryptMsgEarlyErrors :
    dueInputSize State.reset.cfg (.decryptMsg (zeros 1025) []) ∧
    dueShortInput State.reset.cfg (.decryptMsg [] (zeros 65)) ∧
    dueFormat State.reset.cfg (.decryptMsg [] leastKeys) := by
  simp [leastKeys, dueInputSize, dueShortInput, dueFormat]
/-- The bounds of KDF, TAG and CTEQ, met and passed by one byte. -/
theorem witness_KdfResult_TagResult_CteqResult :
    (zeros 1024).length ≤ State.reset.cfg.maxPw ∧
    State.reset.cfg.maxPw < (zeros 1025).length ∧
    (longest 0).length ≤ State.reset.cfg.maxData + 82 ∧
    State.reset.cfg.maxData + 82 < tooLongMessage.length := by
  simp
/-- The hypothesis of the obligations about every command but GET_STATUS. -/
theorem witness_ErrorsExactlyWhenDue : Instr.clear ≠ .getStatus := by decide
theorem witness_NoTagErrorExactlyWhenDue :
    (∃ t, exec (.decBuildPw [] leastPassword) State.reset = .next t ∧ t.lasterr = .ok) ∧
    ∃ t, exec (.decBuildKeys K1 K2 leastKeys) State.reset = .next t ∧ t.lasterr = .ok :=
  ⟨⟨_, rfl, rfl⟩, _, rfl, rfl⟩
theorem witness_RngErrorExactlyWhenDue :
    dueRng { State.reset with rng := [.fail] } (.encryptMsg [0x61] []) :=
  ⟨by decide, by decide, by decide, 0, by decide, rfl⟩
theorem witness_TagGenAndReservedCodesNeverProduced :
    (given State.reset [0x01]).inputs = .packet [0x01] :: [] ∧ decode [0x01] ≠ .ok .getStatus :=
  ⟨rfl, by decide⟩
theorem witness_ComparatorIsEquality : ([] : List Byte).length ≠ [(0x00 : Byte)].length := by decide
theorem witness_TwoStepRoundTrip :
    1 ≤ [(0x61 : Byte)].length ∧ [(0x61 : Byte)].length ≤ State.reset.cfg.maxPw ∧
    (zeros 65536).length ≤ State.reset.cfg.maxData ∧ encKeys.cfg = State.reset.cfg := by
  simp
/-- The bytes changed: the first two, and the first and the last of the tag (50 and 81). -/
theorem witness_CertainTamperDetection :
    [(0x61 : Byte)].length ≤ State.reset.cfg.maxPw ∧ ([] : List Byte).length ≤ State.reset.cfg.maxData ∧
    (0x02 : Byte) ≠ 0x03 ∧ (0x00 : Byte) ≠ 0x01 ∧
    (34 + 16 * (([] : List Byte).length / 16 + 1) ≤ 50 ∧ 81 < 34 + 16 * (([] : List Byte).length / 16 + 1) + 32) ∧
    ∀ k, (encA.message []).getD k 0 ≠ (encA.message []).getD k 0 + 1 := by
  refine ⟨by decide, by decide, by decide, by decide, by decide, fun k => ?_⟩
  generalize (encA.message []).getD k 0 = x
  revert x
  decide
theorem witness_IvReuseRepeatsCiphertextBlocks :
    encKeys.ctx = .enc ∧ (List.replicate 16 (0 : Byte)).length ≤ encKeys.cfg.maxData ∧
    (List.replicate 17 (0 : Byte)).length ≤ encKeys.cfg.maxData ∧
    16 * 1 ≤ (List.replicate 16 (0 : Byte)).length ∧ 16 * 1 ≤ (List.replicate 17 (0 : Byte)).length ∧
    (List.replicate 16 (0 : Byte)).take (16 * 1) = (List.replicate 17 (0 : Byte)).take (16 * 1) := by
  decide
theorem witness_StateAfterAnError :
    ∃ t, exec (.decryptMsg [] []) encKeys = .next t ∧ t.lasterr ≠ .ok := ⟨_, rfl, by decide⟩

end Sys2Proof.Tests
end

section
/-! SUPPORT. What the proofs about the state share: the state a command leaves as a function of its
end, one equation of the step per host event, the commands that write the context, and the data
registers seen from outside (10_state.md rules R24 to R36). -/

namespace Sys2Proof.Machine

/-! ## From the end of a command to the next state -/

/-- The state after a command whose pseudocode has ended with `r`: the common frame, and for
`GET_STATUS` the response alone (R210, R212). -/
def nextOf (i : Instr) (r : CmdEnd × State) : State :=
  if i = .getStatus then r.2.emit .ok r.1.payload else r.2.conclude r.1

theorem exec_eq_nextOf (i : Instr) (s : State) : exec i s = .next (nextOf i (runOf i s)) := by
  cases i <;> rfl

theorem nextOf_eq (i : Instr) (r : CmdEnd × State) : (nextOf i r).eq = r.2.eq := by
  unfold nextOf
  split <;> simp

theorem nextOf_lasterr {i : Instr} (h : i ≠ .getStatus) (r : CmdEnd × State) :
    (nextOf i r).lasterr = r.1.status := by
  simp [nextOf, h]

/-- Ending a command writes no part of the context. -/
theorem nextOf_sameCtx (i : Instr) (r : CmdEnd × State) : r.2.SameCtx (nextOf i r) := by
  unfold nextOf
  split
  · exact ⟨rfl, rfl, rfl, rfl, rfl, rfl, rfl⟩
  · constructor <;> simp

/-! ## The step, event by event -/

theorem step_idle {s : State} (h : s.inputs = []) : step s = .next s := by
  rw [step, State.takeInput_nil h]
  rfl

theorem step_packet_ok {s : State} {p : List Byte} {rest : List HostEvent} {i : Instr}
    (h : s.inputs = .packet p :: rest) (hd : decode p = .ok i) :
    step s = exec i { s with inputs := rest } := by
  simp only [step, State.takeInput_cons h, hd]

theorem step_packet_error {s : State} {p : List Byte} {rest : List HostEvent} {why : Illegal}
    (h : s.inputs = .packet p :: rest) (hd : decode p = .error why) :
    step s = .next (State.raiseError { s with inputs := rest } .illegalCmd) := by
  simp only [step, State.takeInput_cons h, hd]
  rfl

theorem step_reset {s : State} {rest : List HostEvent} (h : s.inputs = .reset :: rest) :
    step s = .next (State.resetEngine { s with inputs := rest }) := by
  simp only [step, State.takeInput_cons h]

theorem step_resetDuring {s : State} {p : List Byte} {k : Nat} {rest : List HostEvent}
    (h : s.inputs = .resetDuring p k :: rest) :
    step s = .next (State.abandon { s with inputs := rest } k) := by
  simp only [step, State.takeInput_cons h]

/-! ## Contexts -/

theorem State.SameCtx.trans {s t u : State} (h : s.SameCtx t) (k : t.SameCtx u) : s.SameCtx u :=
  ⟨k.ctx.trans h.ctx, k.mode.trans h.mode, k.esalt.trans h.esalt, k.hsalt.trans h.hsalt,
    k.iv.trans h.iv, k.ekey.trans h.ekey, k.hkey.trans h.hkey⟩

theorem State.CtxEmpty.of_sameCtx {s t : State} (h : s.SameCtx t) (k : s.CtxEmpty) : t.CtxEmpty :=
  ⟨h.ctx.trans k.ctx, h.mode.trans k.mode, h.esalt.trans k.esalt, h.hsalt.trans k.hsalt,
    h.iv.trans k.iv, h.ekey.trans k.ekey, h.hkey.trans k.hkey⟩

/-- The invariants speak of the context only. -/
theorem State.CtxInv.of_sameCtx {s t : State} (h : s.SameCtx t) (k : s.CtxInv) : t.CtxInv where
  empty hc := (k.empty (h.ctx ▸ hc)).of_sameCtx h
  keyPair hc hm := by
    rw [h.esalt, h.hsalt]
    exact k.keyPair (h.ctx ▸ hc) (h.mode ▸ hm)
  derived hc hm := by
    rw [h.ekey, h.hkey, h.esalt, h.hsalt]
    exact k.derived (h.ctx ▸ hc) (h.mode ▸ hm)

theorem State.CtxEmpty.ctxInv {s : State} (h : s.CtxEmpty) : s.CtxInv :=
  ⟨fun _ => h, fun hc => absurd h.ctx hc, fun hc => absurd h.ctx hc⟩

/-- A key-pair object as the builds load it (R215, R219). -/
theorem State.loadCtx_keys_ctxInv (s : State) {c : Ctx} (hc : c ≠ .none) (v : Bytes 16)
    (ek hk : Bytes 32) : (s.loadCtx c .keys (Bytes.zero 8) (Bytes.zero 8) v ek hk).CtxInv where
  empty h := absurd h hc
  keyPair _ _ := ⟨rfl, rfl⟩
  derived _ h := nomatch h

/-- A password object as the builds load it (R214, R218). -/
theorem State.loadPassword_ctxInv (s : State) {c : Ctx} (hc : c ≠ .none) (pw : List Byte)
    (es hs : Bytes 8) (v : Bytes 16) : (s.loadPassword c pw es hs v).CtxInv where
  empty h := absurd h hc
  keyPair _ h := nomatch h
  derived _ _ := ⟨pw, rfl, rfl⟩

/-- An error taken writes no part of the context (R267). -/
theorem State.raiseError_sameCtx (s : State) (e : Status) : s.SameCtx (s.raiseError e) :=
  ⟨rfl, rfl, rfl, rfl, rfl, rfl, rfl⟩

theorem State.reset_ctxEmpty : State.reset.CtxEmpty := ⟨rfl, rfl, rfl, rfl, rfl, rfl, rfl⟩

theorem State.resetEngine_ctxEmpty (s : State) : s.resetEngine.CtxEmpty :=
  ⟨rfl, rfl, rfl, rfl, rfl, rfl, rfl⟩

/-! ## Which commands write the context -/

/-- The commands whose pseudocode begins with `ZeroCtx()` (R211, R213): `CLEAR`, the four builds,
the two one-shots. -/
def writesCtx : Instr → Bool
  | .clear | .encBuildPw _ _ _ _ | .encBuildKeys _ _ _ | .encryptMsg _ _
  | .decBuildPw _ _ | .decBuildKeys _ _ _ | .decryptMsg _ _ => true
  | _ => false

/-- The commands that work on the context as it stands (R224). -/
def usesCtx : Instr → Bool
  | .getHdr | .encrypt _ | .decrypt _ => true
  | _ => false

/-- A command that does not begin with `ZeroCtx()` leaves the context as it was (R32). -/
theorem Ends.sameCtx {s : State} {i : Instr} {r : CmdEnd × State} (h : Ends s i r)
    (hw : writesCtx i = false) : s.SameCtx r.2 := by
  cases h with
  | getStatus | getHdrNone | getHdr | encryptSize | encryptSequence | encrypt
  | decryptSize | decryptSequence | decryptNoTag | decryptHmac | decryptUnpad | decrypt
  | kdfSize | kdf | tagSize | tag | cteqSize | cteq =>
    exact ⟨rfl, rfl, rfl, rfl, rfl, rfl, rfl⟩
  | clear | encBuildPwSize | encBuildPw | encBuildKeys
  | encryptMsgSize | encryptMsgRng | encryptMsg
  | decBuildPwSize | decBuildPwShort | decBuildPwFormat | decBuildPw
  | decBuildKeysSize | decBuildKeysShort | decBuildKeysFormat | decBuildKeys
  | decryptMsgSize | decryptMsgShort | decryptMsgFormat
  | decryptMsgHmac | decryptMsgUnpad | decryptMsg => cases hw

/-- A command that writes the context leaves it empty or freshly built, and so within the
invariants whatever it was before. -/
theorem Ends.ctxInv_of_writesCtx {s : State} {i : Instr} {r : CmdEnd × State} (h : Ends s i r)
    (hw : writesCtx i = true) : r.2.CtxInv := by
  cases h with
  | clear | encBuildPwSize | encryptMsgSize | encryptMsgRng | encryptMsg
  | decBuildPwSize | decBuildPwShort | decBuildPwFormat
  | decBuildKeysSize | decBuildKeysShort | decBuildKeysFormat
  | decryptMsgSize | decryptMsgShort | decryptMsgFormat
  | decryptMsgHmac | decryptMsgUnpad | decryptMsg =>
    exact State.CtxEmpty.ctxInv ⟨rfl, rfl, rfl, rfl, rfl, rfl, rfl⟩
  | encBuildPw | decBuildPw => exact s.loadPassword_ctxInv (by decide) _ _ _ _
  | encBuildKeys | decBuildKeys => exact s.loadCtx_keys_ctxInv (by decide) _ _ _
  | getStatus | getHdrNone | getHdr | encryptSize | encryptSequence | encrypt
  | decryptSize | decryptSequence | decryptNoTag | decryptHmac | decryptUnpad | decrypt
  | kdfSize | kdf | tagSize | tag | cteqSize | cteq => cases hw

theorem nextOf_runOf_sameCtx {i : Instr} (hw : writesCtx i = false) (s : State) :
    s.SameCtx (nextOf i (runOf i s)) :=
  ((runOf_ends i s).sameCtx hw).trans (nextOf_sameCtx i _)

/-- Every command keeps the context invariants (R31). -/
theorem nextOf_runOf_ctxInv (i : Instr) {s : State} (hs : s.CtxInv) :
    (nextOf i (runOf i s)).CtxInv := by
  cases hw : writesCtx i with
  | false => exact hs.of_sameCtx (nextOf_runOf_sameCtx hw s)
  | true => exact ((runOf_ends i s).ctxInv_of_writesCtx hw).of_sameCtx (nextOf_sameCtx i _)

/-- A command that writes the context reads nothing of the old one (R211). -/
theorem runOf_zeroCtx {i : Instr} (hw : writesCtx i = true) (s : State) :
    runOf i s.zeroCtx = runOf i s := by
  cases i with
  | clear | encBuildPw | encBuildKeys | encryptMsg | decBuildPw | decBuildKeys | decryptMsg => rfl
  | getStatus | getHdr | encrypt | decrypt | kdf | tag | cteq => cases hw

/-! ## The data registers seen from outside -/

/-- The contents of the five data registers (R20, R21). -/
structure Registers where
  esalt : Bytes 8
  hsalt : Bytes 8
  iv : Bytes 16
  ekey : Bytes 32
  hkey : Bytes 32

/-- The state with other contents of the data registers. -/
def State.withRegisters (s : State) (d : Registers) : State :=
  { s with esalt := d.esalt, hsalt := d.hsalt, iv := d.iv, ekey := d.ekey, hkey := d.hkey }

theorem State.SameButRegisters.refl (s : State) : s.SameButRegisters s :=
  ⟨rfl, rfl, rfl, rfl, rfl, rfl, rfl, rfl, rfl⟩

section
variable (s : State) (d : Registers)

@[simp] theorem State.withRegisters_ctx : (s.withRegisters d).ctx = s.ctx := rfl
@[simp] theorem State.withRegisters_cfg : (s.withRegisters d).cfg = s.cfg := rfl

@[simp] theorem State.zeroCtx_withRegisters : (s.withRegisters d).zeroCtx = s.zeroCtx := rfl

@[simp] theorem State.setEq_withRegisters (b : Bool) :
    (s.withRegisters d).setEq b = (s.setEq b).withRegisters d := rfl

theorem State.withRegisters_sameButRegisters : s.SameButRegisters (s.withRegisters d) :=
  ⟨rfl, rfl, rfl, rfl, rfl, rfl, rfl, rfl, rfl⟩

/-- The header shows salts and IV, no key (R192). -/
theorem State.hdr_withRegisters_keys (ek hk : Bytes 32) :
    (s.withRegisters ⟨s.esalt, s.hsalt, s.iv, ek, hk⟩).hdr = s.hdr := rfl

theorem nextOf_withRegisters (i : Instr) (r : CmdEnd × State) :
    nextOf i (r.1, r.2.withRegisters d) = (nextOf i r).withRegisters d := by
  obtain ⟨e, u⟩ := r
  unfold nextOf
  split
  · rfl
  · cases e <;> rfl

/-- A command that writes the context does not see what the registers hold. -/
theorem runOf_withRegisters_of_writesCtx {i : Instr} (hw : writesCtx i = true) :
    runOf i (s.withRegisters d) = runOf i s := by
  rw [← runOf_zeroCtx hw, State.zeroCtx_withRegisters, runOf_zeroCtx hw]

/-- The command ends in the same way with the registers holding `d`, and leaves them holding `d`. -/
def EndsAlike (i : Instr) (s : State) (d : Registers) : Prop :=
  runOf i (s.withRegisters d) = ((runOf i s).1, (runOf i s).2.withRegisters d)

theorem EndsAlike.nextOf_runOf {i : Instr} {s : State} {d : Registers} (h : EndsAlike i s d) :
    nextOf i (runOf i (s.withRegisters d)) = (nextOf i (runOf i s)).withRegisters d := by
  rw [h, nextOf_withRegisters]

/-- `GET_STATUS` and the unit commands read no data register. -/
theorem endsAlike_of_not_usesCtx {i : Instr} (hw : writesCtx i = false) (hu : usesCtx i = false) :
    EndsAlike i s d := by
  unfold EndsAlike
  cases i with
  | getStatus => rfl
  | kdf pw salt =>
    by_cases h : s.cfg.maxPw < pw.length <;> simp [runOf, runKdf, State.passwordTooLong, h]
  | tag k m =>
    by_cases h : maxMsg s.cfg < m.length <;> simp [runOf, runTag, State.messageTooLong, h]
  | cteq a b =>
    by_cases h : maxMsg s.cfg < a.length ∨ maxMsg s.cfg < b.length <;>
      simp [runOf, runCteq, State.messageTooLong, h]
  | getHdr | encrypt | decrypt => cases hu
  | clear | encBuildPw | encBuildKeys | encryptMsg | decBuildPw | decBuildKeys | decryptMsg =>
    cases hw
end

/-- With no context, the commands that work on one refuse before they read a register (R34, R260). -/
theorem endsAlike_of_ctx_none {i : Instr} {s : State} (hu : usesCtx i = true) (hc : s.ctx = .none)
    (d : Registers) : EndsAlike i s d := by
  unfold EndsAlike
  cases i with
  | getHdr => simp [runOf, runGetHdr, hc]
  | encrypt pt =>
    simp only [runOf, runEncrypt, State.plaintextTooLong, State.withRegisters_cfg,
      State.withRegisters_ctx, hc]
    split <;> rfl
  | decrypt m =>
    simp only [runOf, runDecrypt, State.messageTooLong, State.withRegisters_cfg,
      State.withRegisters_ctx, hc]
    split <;> rfl
  | getStatus | clear | encBuildPw | encBuildKeys | encryptMsg | decBuildPw | decBuildKeys
  | decryptMsg | kdf | tag | cteq => cases hu

/-- `GET_HDR` reads no key register (R36). -/
theorem endsAlike_getHdr_keys (s : State) (ek hk : Bytes 32) :
    EndsAlike .getHdr s ⟨s.esalt, s.hsalt, s.iv, ek, hk⟩ := by
  by_cases h : s.ctx = .none <;>
    simp [EndsAlike, runOf, runGetHdr, h, State.hdr_withRegisters_keys]

end Sys2Proof.Machine
end

section
/-! SUPPORT. The comparator is equality (42_hmac_compare.md rule R176), what each command writes to
`EQ` (10_state.md rule R24), and the ranges of the status fields (rule R26). -/

namespace Sys2Proof

/-- A fold of or is zero only if nothing set a bit. -/
theorem foldl_or_eq_zero_iff (l : List Byte) (x : Byte) :
    l.foldl (· ||| ·) x = 0#8 ↔ x = 0#8 ∧ ∀ y ∈ l, y = 0#8 := by
  induction l generalizing x with
  | nil => simp
  | cons y l ih => simp [ih, BitVec.or_eq_zero_iff, and_assoc]

theorem zipWith_xor_all_zero_iff {a b : List Byte} (h : a.length = b.length) :
    (∀ y ∈ List.zipWith (· ^^^ ·) a b, y = 0#8) ↔ a = b := by
  induction a generalizing b with
  | nil => simp [List.length_eq_zero_iff.mp h.symm]
  | cons x a ih =>
    cases b with
    | nil => cases h
    | cons y b => simp [ih (Nat.succ.inj h), BitVec.xor_eq_zero_iff]

/-- R176: the comparator's verdict is equality of the byte strings. -/
theorem ctEq_eq_true_iff (a b : List Byte) : ctEq a b = true ↔ a = b := by
  unfold ctEq
  split
  · rename_i h
    exact ⟨nofun, fun e => absurd (congrArg List.length e) h⟩
  · rename_i h
    rw [beq_iff_eq]
    exact (foldl_or_eq_zero_iff _ _).trans
      ((and_iff_right rfl).trans (zipWith_xor_all_zero_iff (not_not.mp h)))

theorem ctEq_eq_decide (a b : List Byte) : ctEq a b = decide (a = b) := by
  rw [Bool.eq_iff_iff, ctEq_eq_true_iff, decide_eq_true_iff]

end Sys2Proof

namespace Sys2Proof.Machine

/-- What `EQ` holds after a command that ended with status `e` (R24, R267). -/
def eqAfter (s : State) (e : Status) : Instr → Bool
  | .cteq a b => if e = .ok then decide (a = b) else s.eq
  | .decrypt _ | .decryptMsg _ _ =>
    if e = .ok ∨ e = .unpad then true else if e = .hmac then false else s.eq
  | _ => s.eq

theorem Ends.eq_eqAfter {s : State} {i : Instr} {r : CmdEnd × State} (h : Ends s i r) :
    r.2.eq = eqAfter s r.1.status i := by
  cases h with
  | cteq => exact ctEq_eq_decide _ _
  | cteqSize => rfl
  | decryptSize | decryptSequence | decryptNoTag | decryptHmac | decryptUnpad | decrypt => rfl
  | decryptMsgSize | decryptMsgShort | decryptMsgFormat
  | decryptMsgHmac | decryptMsgUnpad | decryptMsg => rfl
  | getStatus | clear | getHdrNone | getHdr | encBuildPwSize | encBuildPw | encBuildKeys
  | encryptSize | encryptSequence | encrypt | encryptMsgSize | encryptMsgRng | encryptMsg
  | decBuildPwSize | decBuildPwShort | decBuildPwFormat | decBuildPw
  | decBuildKeysSize | decBuildKeysShort | decBuildKeysFormat | decBuildKeys
  | kdfSize | kdf | tagSize | tag => rfl

theorem nextOf_runOf_eq (i : Instr) (s : State) :
    (nextOf i (runOf i s)).eq = eqAfter s (nextOf i (runOf i s)).lasterr i := by
  rw [nextOf_eq, (runOf_ends i s).eq_eqAfter]
  by_cases h : i = .getStatus
  · rw [h]
    rfl
  · rw [nextOf_lasterr h]

theorem Status.code_le (e : Status) : e.code ≤ 10 := by cases e <;> decide

theorem Ctx.code_le (c : Ctx) : c.code ≤ 2 := by cases c <;> decide

theorem Mode.code_le (m : Mode) : m.code ≤ 1 := by cases m <;> decide

theorem Mode.code_eq_one_iff (m : Mode) : m.code = 1 ↔ m = .password := by cases m <;> decide

theorem eqCode_le (b : Bool) : eqCode b ≤ 1 := by cases b <;> decide

theorem eqCode_eq_one_iff (b : Bool) : eqCode b = 1 ↔ b = true := by cases b <;> decide

/-- The fields fill the byte and do not overlap, so nothing is cut off (R26). -/
theorem State.statusByte_toNat (s : State) :
    s.statusByte.toNat = eqCode s.eq * 128 + s.mode.code * 64 + s.ctx.code * 16 + s.lasterr.code := by
  have he := eqCode_le s.eq
  have hm := s.mode.code_le
  have hc := s.ctx.code_le
  have hl := s.lasterr.code_le
  rw [State.statusByte, BitVec.toNat_ofNat]
  omega

/-- A bit of a byte, as arithmetic. -/
theorem byte_getLsbD (b : Byte) (k : Nat) : b.getLsbD k = decide (b.toNat / 2 ^ k % 2 = 1) :=
  Nat.testBit_eq_decide_div_mod_eq

theorem State.statusByte_bit7 (s : State) : s.statusByte.getLsbD 7 = s.eq := by
  have hm := s.mode.code_le
  have hc := s.ctx.code_le
  have hl := s.lasterr.code_le
  have he := eqCode_le s.eq
  have h : s.statusByte.toNat / 2 ^ 7 % 2 = eqCode s.eq := by rw [s.statusByte_toNat]; omega
  rw [byte_getLsbD, h, Bool.eq_iff_iff, decide_eq_true_iff, eqCode_eq_one_iff]

theorem State.statusByte_bit6 (s : State) :
    s.statusByte.getLsbD 6 = decide (s.mode = .password) := by
  have hm := s.mode.code_le
  have hc := s.ctx.code_le
  have hl := s.lasterr.code_le
  have h : s.statusByte.toNat / 2 ^ 6 % 2 = s.mode.code := by rw [s.statusByte_toNat]; omega
  rw [byte_getLsbD, h, decide_eq_decide, Mode.code_eq_one_iff]

theorem State.statusByte_bits54 (s : State) :
    (s.statusByte.extractLsb 5 4).toNat = s.ctx.code := by
  have hc := s.ctx.code_le
  have hl := s.lasterr.code_le
  rw [BitVec.extractLsb_toNat, s.statusByte_toNat, Nat.shiftRight_eq_div_pow]
  omega

theorem State.statusByte_bits30 (s : State) :
    (s.statusByte.extractLsb 3 0).toNat = s.lasterr.code := by
  have hl := s.lasterr.code_le
  rw [BitVec.extractLsb_toNat, s.statusByte_toNat, Nat.shiftRight_zero]
  omega

end Sys2Proof.Machine
end

section
/-! The obligations on the state (10_state.md). -/

namespace Sys2Proof.Machine

/-- Settles O13: a packet is a command, which keeps the invariants, or is refused without touching
the context; a reset empties the context. -/
theorem stepKeepsContextInvariants : Obligations.StepKeepsContextInvariants := by
  intro s t hs ht
  cases hin : s.inputs with
  | nil =>
    cases (step_idle hin).symm.trans ht
    exact hs
  | cons e rest =>
    have hs' : State.CtxInv { s with inputs := rest } :=
      .of_sameCtx (s := s) ⟨rfl, rfl, rfl, rfl, rfl, rfl, rfl⟩ hs
    cases e with
    | packet p =>
      cases hd : decode p with
      | ok i =>
        rw [step_packet_ok hin hd, exec_eq_nextOf] at ht
        cases ht
        exact nextOf_runOf_ctxInv i hs'
      | error why =>
        cases (step_packet_error hin hd).symm.trans ht
        exact hs'.of_sameCtx (State.raiseError_sameCtx _ _)
    | reset =>
      cases (step_reset hin).symm.trans ht
      exact (State.resetEngine_ctxEmpty _).ctxInv
    | resetDuring p k =>
      cases (step_resetDuring hin).symm.trans ht
      exact (State.resetEngine_ctxEmpty _).ctxInv

/-- Settles O11: each field is read off the sum by its weight. -/
theorem statusByteHoldsTheFields : Obligations.StatusByteHoldsTheFields := fun s =>
  ⟨s.statusByte_toNat, s.statusByte_bit7, s.statusByte_bit6, s.statusByte_bits54,
    s.statusByte_bits30, s.lasterr.code_le⟩

/-- Settles O14: the seven commands are those that do not write the context. -/
theorem builtContextIsImmutable : Obligations.BuiltContextIsImmutable := by
  refine ⟨fun i s hi => ⟨_, exec_eq_nextOf i s, nextOf_runOf_sameCtx ?_ s⟩,
    fun s p rest why hin hd => ⟨_, step_packet_error hin hd, ?_⟩⟩
  · cases i with
    | encrypt | decrypt | getHdr | getStatus | kdf | tag | cteq => rfl
    | clear | encBuildPw | encBuildKeys | encryptMsg | decBuildPw | decBuildKeys | decryptMsg =>
      exact hi.elim
  · exact ⟨rfl, rfl, rfl, rfl, rfl, rfl, rfl⟩

/-- Settles O17: `eqAfter` is the table of R267 for `EQ`. -/
theorem onlyComparisonsWriteEq : Obligations.OnlyComparisonsWriteEq := by
  intro i s
  refine ⟨_, exec_eq_nextOf i s, ?_⟩
  have h := nextOf_runOf_eq i s
  cases i <;> exact h

/-- Settles O18: a command either begins by emptying the registers, or refuses for want of a
context, or works on its operands alone. -/
theorem emptyContextRegistersAreNotRead : Obligations.EmptyContextRegistersAreNotRead := by
  intro i s es hs v ek hk hc
  refine ⟨_, _, exec_eq_nextOf i s, exec_eq_nextOf i (s.withRegisters ⟨es, hs, v, ek, hk⟩), ?_⟩
  cases hw : writesCtx i with
  | true =>
    rw [runOf_withRegisters_of_writesCtx _ _ hw]
    exact ⟨.refl _, fun _ => rfl⟩
  | false =>
    have hr : EndsAlike i s ⟨es, hs, v, ek, hk⟩ := by
      cases hu : usesCtx i with
      | true => exact endsAlike_of_ctx_none hu hc _
      | false => exact endsAlike_of_not_usesCtx _ _ hw hu
    rw [hr.nextOf_runOf]
    exact ⟨State.withRegisters_sameButRegisters _ _,
      fun h => absurd ((nextOf_runOf_sameCtx hw s).ctx.trans hc) h⟩

/-- Settles O19: of the three commands that work on a context, `GET_HDR` alone is left, and the
header holds no key. -/
theorem keysReachOnlyEncryptAndDecrypt : Obligations.KeysReachOnlyEncryptAndDecrypt := by
  intro i s ek hk he hd
  refine ⟨_, _, exec_eq_nextOf i s,
    exec_eq_nextOf i (s.withRegisters ⟨s.esalt, s.hsalt, s.iv, ek, hk⟩), ?_⟩
  cases hw : writesCtx i with
  | true =>
    rw [runOf_withRegisters_of_writesCtx _ _ hw]
    exact ⟨.refl _, rfl, rfl, rfl⟩
  | false =>
    have hr : EndsAlike i s ⟨s.esalt, s.hsalt, s.iv, ek, hk⟩ := by
      cases hu : usesCtx i with
      | false => exact endsAlike_of_not_usesCtx _ _ hw hu
      | true =>
        cases i with
        | getHdr => exact endsAlike_getHdr_keys s ek hk
        | encrypt pt => exact absurd rfl (he pt)
        | decrypt m => exact absurd rfl (hd m)
        | getStatus | clear | encBuildPw | encBuildKeys | encryptMsg | decBuildPw | decBuildKeys
        | decryptMsg | kdf | tag | cteq => cases hu
    have hsame := nextOf_runOf_sameCtx hw s
    rw [hr.nextOf_runOf]
    exact ⟨State.withRegisters_sameButRegisters _ _, hsame.esalt.symm, hsame.hsalt.symm,
      hsame.iv.symm⟩

/-- Settles O10. -/
theorem resetValues : Obligations.ResetValues :=
  ⟨rfl, rfl, rfl, rfl, rfl, rfl, rfl, rfl, rfl, rfl⟩

/-- Settles O12: the reset state is empty. -/
theorem resetMeetsContextInvariants : Obligations.ResetMeetsContextInvariants :=
  State.reset_ctxEmpty.ctxInv

end Sys2Proof.Machine
end

section
/-! SUPPORT. The randomness port after a command: how many draws each end has made
(20_memory.md rule R63, 43_frame.md rule R191). -/

namespace Sys2Proof.Machine

/-- From `s` to `t` the port has served `k` draws: `k` answers are used up and `k` draws counted
(R55). -/
structure State.Drew (s : State) (k : Nat) (t : State) : Prop where
  rng : t.rng = s.rng.drop k
  draws : t.draws = s.draws + k

/-- How many draws `GenSaltsIv()` makes: up to and including the first failure (R191). -/
def State.saltDraws (s : State) : Nat :=
  if s.answer 0 = .fail then 1 else if s.answer 1 = .fail then 2 else 3

theorem State.saltDraws_of_first_fail {s : State} {k : Nat} (hk : k < 3)
    (hok : ∀ j, j < k → s.answer j ≠ .fail) (hfail : s.answer k = .fail) :
    s.saltDraws = k + 1 := by
  unfold State.saltDraws
  obtain rfl | rfl | rfl : k = 0 ∨ k = 1 ∨ k = 2 := by omega
  · rw [if_pos hfail]
  · rw [if_neg (hok 0 (by decide)), if_pos hfail]
  · rw [if_neg (hok 0 (by decide)), if_neg (hok 1 (by decide))]

theorem State.saltDraws_of_ok {s : State} {b0 b1 : Bytes 16} (h0 : s.answer 0 = .ok b0)
    (h1 : s.answer 1 = .ok b1) : s.saltDraws = 3 := by
  simp [State.saltDraws, h0, h1]

/-- Ending a command makes no draw. -/
theorem nextOf_drew (i : Instr) {s : State} {k : Nat} {r : CmdEnd × State} (h : s.Drew k r.2) :
    s.Drew k (nextOf i r) := by
  unfold nextOf
  split
  · exact ⟨h.rng, h.draws⟩
  · constructor <;> simp [h.rng, h.draws]

/-- No end of a command other than `ENCRYPT_MSG` has made a draw (R63). -/
theorem Ends.drew_zero {s : State} {i : Instr} {r : CmdEnd × State} (h : Ends s i r)
    (hi : ∀ pw pt, i ≠ .encryptMsg pw pt) : s.Drew 0 r.2 := by
  cases h with
  | encryptMsgSize | encryptMsgRng | encryptMsg => exact absurd rfl (hi _ _)
  | getStatus | clear | getHdrNone | getHdr | encBuildPwSize | encBuildPw | encBuildKeys
  | encryptSize | encryptSequence | encrypt
  | decBuildPwSize | decBuildPwShort | decBuildPwFormat | decBuildPw
  | decBuildKeysSize | decBuildKeysShort | decBuildKeysFormat | decBuildKeys
  | decryptSize | decryptSequence | decryptNoTag | decryptHmac | decryptUnpad | decrypt
  | decryptMsgSize | decryptMsgShort | decryptMsgFormat
  | decryptMsgHmac | decryptMsgUnpad | decryptMsg
  | kdfSize | kdf | tagSize | tag | cteqSize | cteq => exact ⟨rfl, rfl⟩

/-- `ENCRYPT_MSG` refused by its checks has made no draw (R217). -/
theorem runOf_encryptMsg_drew_zero {pw pt : List Byte} {s : State}
    (h : dueInputSize s.cfg (.encryptMsg pw pt)) : s.Drew 0 (runOf (.encryptMsg pw pt) s).2 := by
  have e : runOf (.encryptMsg pw pt) s = (.raise .inputSize, s.zeroCtx) := runEncryptMsg_refused h
  rw [e]
  exact ⟨rfl, rfl⟩

/-- `ENCRYPT_MSG` past its checks has made the draws of `GenSaltsIv()` (R191, R217). -/
theorem Ends.drew_saltDraws {pw pt : List Byte} {s : State} {r : CmdEnd × State}
    (h : Ends s (.encryptMsg pw pt) r) (hd : ¬ dueInputSize s.cfg (.encryptMsg pw pt)) :
    s.Drew s.saltDraws r.2 := by
  cases h with
  | encryptMsgSize hsize => exact absurd hsize hd
  | encryptMsgRng _ _ _ hk hok hfail =>
    rw [State.saltDraws_of_first_fail hk hok hfail]
    exact ⟨rfl, rfl⟩
  | encryptMsg _ _ _ h0 h1 _ =>
    rw [State.saltDraws_of_ok h0 h1]
    exact ⟨rfl, rfl⟩

end Sys2Proof.Machine
end

section
/-! The obligation on the randomness port (20_memory.md). -/

namespace Sys2Proof.Machine

/-- Settles O20: no other command's end has touched the port; `ENCRYPT_MSG` is refused before it
draws, or makes the draws of `GenSaltsIv()`. -/
theorem onlyEncryptMsgDraws : Obligations.OnlyEncryptMsgDraws := by
  refine ⟨fun i s hi => ⟨_, exec_eq_nextOf i s, ?_⟩,
    fun pw pt s => ⟨_, exec_eq_nextOf _ s, fun hdue => ?_, fun hpast => ?_⟩⟩
  · obtain ⟨hrng, hdraws⟩ := nextOf_drew i ((runOf_ends i s).drew_zero hi)
    exact ⟨hrng, hdraws⟩
  · obtain ⟨hrng, hdraws⟩ := nextOf_drew (.encryptMsg pw pt) (runOf_encryptMsg_drew_zero hdue)
    exact ⟨hrng, hdraws⟩
  · obtain ⟨hrng, hdraws⟩ :=
      nextOf_drew (.encryptMsg pw pt) ((runOf_ends (.encryptMsg pw pt) s).drew_saltDraws hpast)
    refine ⟨hdraws, ?_⟩
    rw [hdraws, Nat.add_sub_cancel_left]
    exact hrng

end Sys2Proof.Machine
end

section
/-! SUPPORT. Taking one operand off a packet, in both directions, and from it the decoder as the
exact inverse of the encoder (30_encoding.md rules R71 to R76). -/

namespace Sys2Proof

theorem fitsLengthField_iff {b : List Byte} : fitsLengthField b = true ↔ b.length < 2 ^ 32 :=
  decide_eq_true_iff

/-! ## One operand -/

/-- A `var` operand that is the whole rest of the packet is taken off (R72). -/
theorem takeVar_varOperand {b : List Byte} (h : fitsLengthField b = true) :
    takeVar (varOperand b) = .ok (b, []) := by
  simpa using takeVar_append (fitsLengthField_iff.mp h) []

/-- A `fix(n)` operand that is the whole rest of the packet is taken off (R72). -/
@[simp] theorem takeFix_val {n : Nat} (b : Bytes n) : takeFix n b.val = .ok (b, []) := by
  simpa using takeFix_append b []

@[simp] theorem ok_bind {α : Type} (a : α) (f : α → Except Illegal Instr) :
    (Except.ok a >>= f) = f a := rfl

theorem bind_eq_ok {α : Type} {x : Except Illegal α} {f : α → Except Illegal Instr} {i : Instr}
    (h : (x >>= f) = .ok i) : ∃ a, x = .ok a ∧ f a = .ok i := by
  cases x with
  | error e => cases h
  | ok a => exact ⟨a, rfl, h⟩

/-- A reader that begins with a `var` operand accepts only a packet that begins with one (R75). -/
theorem takeVar_bind_ok {p : List Byte} {f : List Byte × List Byte → Except Illegal Instr}
    {i : Instr} (h : (takeVar p >>= f) = .ok i) :
    ∃ b rest, p = varOperand b ++ rest ∧ fitsLengthField b = true ∧ f (b, rest) = .ok i := by
  obtain ⟨⟨b, rest⟩, ht, hf⟩ := bind_eq_ok h
  obtain ⟨hp, hb⟩ := takeVar_ok ht
  exact ⟨b, rest, hp, fitsLengthField_iff.mpr hb, hf⟩

/-- A reader that begins with a `fix(n)` operand accepts only a packet that begins with one (R75). -/
theorem takeFix_bind_ok {n : Nat} {p : List Byte}
    {f : Bytes n × List Byte → Except Illegal Instr} {i : Instr}
    (h : (takeFix n p >>= f) = .ok i) :
    ∃ b rest, p = b.val ++ rest ∧ f (b, rest) = .ok i := by
  obtain ⟨⟨b, rest⟩, ht, hf⟩ := bind_eq_ok h
  exact ⟨b, rest, takeFix_ok ht, hf⟩

/-! ## All operands of a row -/

/-- The operands of a well-formed command are read back by the reader of its row (R75). -/
theorem decodeOperands_encodeOperands {i : Instr} (h : WellFormed i = true) :
    decodeOperands i.op (encodeOperands i) = .ok i := by
  cases i with
  | getStatus | clear | getHdr => rfl
  | encrypt b | decrypt b => simp [Instr.op, decodeOperands, encodeOperands, takeVar_varOperand h]
  | encryptMsg a b | decBuildPw a b | decryptMsg a b | cteq a b =>
    obtain ⟨ha, hb⟩ := (Bool.and_eq_true _ _).mp h
    simp [Instr.op, decodeOperands, encodeOperands, takeVar_append (fitsLengthField_iff.mp ha),
      takeVar_varOperand hb]
  | encBuildPw | kdf =>
    simp [Instr.op, decodeOperands, encodeOperands, takeVar_append (fitsLengthField_iff.mp h)]
  | encBuildKeys => simp [Instr.op, decodeOperands, encodeOperands]
  | decBuildKeys | tag =>
    simp [Instr.op, decodeOperands, encodeOperands, takeVar_varOperand h]

/-- A row's reader accepts only the operands of a well-formed command of that row (R75). -/
theorem decodeOperands_ok {o : Op} {p : List Byte} {i : Instr} (h : decodeOperands o p = .ok i) :
    i.op = o ∧ encodeOperands i = p ∧ WellFormed i = true := by
  cases o with
  | getStatus | clear | getHdr =>
    obtain ⟨rfl, rfl⟩ := finishPacket_ok h
    exact ⟨rfl, rfl, rfl⟩
  | encrypt | decrypt =>
    obtain ⟨b, p, rfl, hb, h1⟩ := takeVar_bind_ok h
    obtain ⟨rfl, rfl⟩ := finishPacket_ok h1
    exact ⟨rfl, (List.append_nil _).symm, hb⟩
  | encryptMsg | decBuildPw | decryptMsg | cteq =>
    obtain ⟨a, p, rfl, ha, h1⟩ := takeVar_bind_ok h
    obtain ⟨b, p, rfl, hb, h2⟩ := takeVar_bind_ok h1
    obtain ⟨rfl, rfl⟩ := finishPacket_ok h2
    exact ⟨rfl, by simp [encodeOperands], (Bool.and_eq_true _ _).mpr ⟨ha, hb⟩⟩
  | encBuildPw =>
    obtain ⟨pw, p, rfl, hpw, h1⟩ := takeVar_bind_ok h
    obtain ⟨es, p, rfl, h2⟩ := takeFix_bind_ok h1
    obtain ⟨hs, p, rfl, h3⟩ := takeFix_bind_ok h2
    obtain ⟨v, p, rfl, h4⟩ := takeFix_bind_ok h3
    obtain ⟨rfl, rfl⟩ := finishPacket_ok h4
    exact ⟨rfl, by simp [encodeOperands], hpw⟩
  | encBuildKeys =>
    obtain ⟨ek, p, rfl, h1⟩ := takeFix_bind_ok h
    obtain ⟨hk, p, rfl, h2⟩ := takeFix_bind_ok h1
    obtain ⟨v, p, rfl, h3⟩ := takeFix_bind_ok h2
    obtain ⟨rfl, rfl⟩ := finishPacket_ok h3
    exact ⟨rfl, by simp [encodeOperands], rfl⟩
  | decBuildKeys =>
    obtain ⟨ek, p, rfl, h1⟩ := takeFix_bind_ok h
    obtain ⟨hk, p, rfl, h2⟩ := takeFix_bind_ok h1
    obtain ⟨m, p, rfl, hm, h3⟩ := takeVar_bind_ok h2
    obtain ⟨rfl, rfl⟩ := finishPacket_ok h3
    exact ⟨rfl, by simp [encodeOperands], hm⟩
  | kdf =>
    obtain ⟨pw, p, rfl, hpw, h1⟩ := takeVar_bind_ok h
    obtain ⟨salt, p, rfl, h2⟩ := takeFix_bind_ok h1
    obtain ⟨rfl, rfl⟩ := finishPacket_ok h2
    exact ⟨rfl, by simp [encodeOperands], hpw⟩
  | tag =>
    obtain ⟨k, p, rfl, h1⟩ := takeFix_bind_ok h
    obtain ⟨d, p, rfl, hd, h2⟩ := takeVar_bind_ok h1
    obtain ⟨rfl, rfl⟩ := finishPacket_ok h2
    exact ⟨rfl, by simp [encodeOperands], hd⟩

/-- A packet that decodes begins with a byte of the opcode map (R74, R75). -/
theorem decode_ok {p : List Byte} {i : Instr} (h : decode p = .ok i) :
    ∃ (o : Op) (q : List Byte), p = o.code :: q ∧ decodeOperands o q = .ok i := by
  cases p with
  | nil => cases h
  | cons b q =>
    rw [decode_cons] at h
    cases ho : Op.ofByte b with
    | none =>
      rw [ho] at h
      cases h
    | some o =>
      rw [ho] at h
      exact ⟨o, q, by rw [Op.code_of_ofByte ho], h⟩

/-- The opcode map as numbers (R74). -/
theorem Op.code_toNat_mem (o : Op) : o.code.toNat ∈
    [0x00, 0x01, 0x02, 0x10, 0x11, 0x12, 0x13, 0x20, 0x21, 0x22, 0x23, 0x30, 0x31, 0x32] := by
  cases o <;> decide

end Sys2Proof
end

section
/-! SUPPORT. What every command keeps and how long its payload can be (00_scope.md rule R7,
30_encoding.md rule R77, 44_commands.md rule R210). -/

namespace Sys2Proof

/-- Unpadding only cuts bytes off (R144). -/
theorem unpad_length_le {b p : List Byte} (h : unpad b = some p) : p.length ≤ b.length := by
  unfold unpad at h
  split at h
  · cases h
  · dsimp only at h
    split at h
    · cases h
    · split at h
      · cases h
        exact List.length_take_le' _ _
      · cases h

/-- Decrypting a body gives no more bytes than the ciphertext had (R146). -/
theorem decryptBody_length_le {key : Bytes 32} {iv : Bytes 16} {ct p : List Byte}
    (h : decryptBody key iv ct = some p) : p.length ≤ ct.length := by
  unfold decryptBody at h
  split at h
  · cases h
  · have hp := unpad_length_le h
    rw [cbcDec, joinBlocks_length, cbcDecBlocks_length, blocks16_length] at hp
    omega

end Sys2Proof

namespace Sys2Proof.Machine

theorem hdrLen_le (m : Mode) : hdrLen m ≤ 34 := by cases m <;> decide

/-- Cutting the ciphertext out of a message does not lengthen it (R87). -/
theorem ctOf_length_le (m : List Byte) (h : Nat) : (ctOf m h).length ≤ m.length := by
  simp only [ctOf, slice, List.length_take, List.length_drop]
  omega

/-- A plaintext within its capacity makes a message within `MAX_MSG` (R7). -/
theorem State.message_length_le (s : State) {pt : List Byte} {c : Config}
    (h : pt.length ≤ c.maxData) : (s.message pt).length ≤ maxMsg c := by
  have hh := hdrLen_le s.mode
  rw [s.message_length, tagLen, maxMsg]
  omega

/-- A message within its capacity holds no longer plaintext (R7, R220). -/
theorem plaintext_length_le {key : Bytes 32} {iv : Bytes 16} {m pt : List Byte} {h : Nat}
    {c : Config} (hd : decryptBody key iv (ctOf m h) = some pt) (hm : m.length ≤ maxMsg c) :
    pt.length ≤ maxMsg c :=
  (decryptBody_length_le hd).trans ((ctOf_length_le m h).trans hm)

/-- No payload is longer than the longest message (R7, R210). -/
theorem Ends.payload_length_le {s : State} {i : Instr} {r : CmdEnd × State} (h : Ends s i r) :
    r.1.payload.length ≤ maxMsg s.cfg := by
  have hmin : 98 ≤ maxMsg s.cfg := Nat.add_le_add_right s.cfg.maxData_ge 82
  cases h with
  | encrypt hpt => exact s.message_length_le hpt
  | encryptMsg _ _ hpt => exact State.message_length_le _ hpt
  | decrypt hm _ _ _ hd => exact plaintext_length_le hd hm
  | decryptMsg ho _ hd => exact plaintext_length_le hd ho.size
  | getHdr =>
    have hh := hdrLen_le s.mode
    rw [CmdEnd.payload, s.hdr_length]
    omega
  | getStatus | kdf | tag | cteq =>
    simp only [CmdEnd.payload, Bytes.length_val, hmacSha256_length, List.length_singleton]
    omega
  | clear | getHdrNone | encBuildPwSize | encBuildPw | encBuildKeys
  | encryptSize | encryptSequence | encryptMsgSize | encryptMsgRng
  | decBuildPwSize | decBuildPwShort | decBuildPwFormat | decBuildPw
  | decBuildKeysSize | decBuildKeysShort | decBuildKeysFormat | decBuildKeys
  | decryptSize | decryptSequence | decryptNoTag | decryptHmac | decryptUnpad
  | decryptMsgSize | decryptMsgShort | decryptMsgFormat | decryptMsgHmac | decryptMsgUnpad
  | kdfSize | tagSize | cteqSize => exact Nat.zero_le _

/-- Two states agree on what no command's pseudocode writes: the response port, `LASTERR`, the
capacities and the waiting packets. -/
structure State.SameFrame (s t : State) : Prop where
  rsp : t.rsp = s.rsp
  lasterr : t.lasterr = s.lasterr
  cfg : t.cfg = s.cfg
  inputs : t.inputs = s.inputs

/-- A command's pseudocode sends nothing and leaves `LASTERR`: both are its end's to write (R210). -/
theorem Ends.sameFrame {s : State} {i : Instr} {r : CmdEnd × State} (h : Ends s i r) :
    s.SameFrame r.2 := by
  cases h <;> exact ⟨rfl, rfl, rfl, rfl⟩

/-- An error has an empty payload (R11, R77). -/
theorem CmdEnd.payload_of_status_ne_ok {r : CmdEnd} (h : r.status ≠ .ok) : r.payload = [] := by
  cases r with
  | ok p => exact absurd rfl h
  | raise e => rfl

/-- A command sends exactly one response packet, its end's (R77, R210). -/
theorem Ends.nextOf_rsp {i : Instr} {s : State} {r : CmdEnd × State} (h : Ends s i r) :
    (nextOf i r).rsp = s.rsp ++ [responsePacket r.1.status r.1.payload] := by
  unfold nextOf
  split
  · rename_i hi
    subst hi
    cases h
    rfl
  · rw [State.conclude_rsp, h.sameFrame.rsp]

end Sys2Proof.Machine
end

section
/-! SUPPORT. Reading back what the printer writes: a byte, an operand, the operands of a row, the
mnemonic (30_encoding.md rule R88). -/

namespace Sys2Proof.Machine

/-! ## One operand -/

/-- A printed digit is a digit with its value, no blank and no quote. -/
theorem hexDigit_spec : ∀ n < 16, hexValue (hexDigit n) = some n ∧ isBlank (hexDigit n) = false ∧
    hexDigit n ≠ '"' := by decide

/-- A digit pair stands for one byte. -/
theorem readHex_digits {c d : Char} {h l : Nat} (t : List Char) (hq : c ≠ '"')
    (hb : isBlank c = false) (hc : hexValue c = some h) (hd : hexValue d = some l) :
    readHex (c :: d :: t) =
      (readHex t).map (fun r => (BitVec.ofNat 8 (16 * h + l) :: r.1, r.2)) := by
  rw [readHex]
  · simp only [hb, hc, hd]
    cases readHex t <;> rfl
  · exact hq

/-- A byte printed as two digits is read back. -/
theorem readHex_hexDigits (x : Byte) (t : List Char) :
    readHex (hexDigit (x.toNat / 16) :: hexDigit (x.toNat % 16) :: t) =
      (readHex t).map (fun r => (x :: r.1, r.2)) := by
  have hx := x.isLt
  obtain ⟨hhigh, hblank, hquote⟩ := hexDigit_spec (x.toNat / 16) (by omega)
  obtain ⟨hlow, -, -⟩ := hexDigit_spec (x.toNat % 16) (by omega)
  rw [readHex_digits t hquote hblank hhigh hlow, Nat.div_add_mod, BitVec.ofNat_toNat]
  rfl

/-- The digits of a byte string up to the closing quote are read back. -/
theorem readHex_printed (b : List Byte) (t : List Char) :
    readHex (b.flatMap (fun x => [hexDigit (x.toNat / 16), hexDigit (x.toNat % 16)]) ++ '"' :: t) =
      some (b, t) := by
  induction b with
  | nil => rfl
  | cons x b ih =>
    rw [List.flatMap_cons, List.append_assoc, List.cons_append, List.cons_append, List.nil_append,
      readHex_hexDigits, ih]
    rfl

/-- A printed operand is read back, after the blank before it. -/
theorem readOperand_printOperand (b : List Byte) (t : List Char) :
    readOperand (skipBlanks (' ' :: printOperand b ++ t)) = some (b, t) := by
  have h : skipBlanks (' ' :: printOperand b ++ t) = printOperand b ++ t := rfl
  rw [h, printOperand, List.append_assoc]
  exact readHex_printed b t

/-! ## The operands of a row -/

/-- The packet bytes of operands of the given kinds (R72, R73). -/
def operandsPacket : List OperandKind → List (List Byte) → Option (List Byte)
  | [], [] => some []
  | k :: ks, b :: bs =>
    match operandPacket b k, operandsPacket ks bs with
    | some p, some q => some (p ++ q)
    | _, _ => none
  | _, _ => none

theorem operandsPacket_cons {k : OperandKind} {ks : List OperandKind} {b : List Byte}
    {bs : List (List Byte)} {r : List Byte} (h : operandsPacket (k :: ks) (b :: bs) = some r) :
    ∃ p q, operandPacket b k = some p ∧ operandsPacket ks bs = some q ∧ r = p ++ q := by
  rw [operandsPacket] at h
  split at h
  · rename_i p q hp hq
    exact ⟨p, q, hp, hq, (Option.some.inj h).symm⟩
  · cases h

/-- The operands of a command have the kinds of its row, and they are its packet after the opcode. -/
theorem operandsPacket_operandList (i : Instr) :
    operandsPacket i.op.format.kinds (operandList i) = some (encodeOperands i) := by
  cases i <;>
    simp [Instr.op, Op.format, Format.kinds, operandList, operandsPacket, operandPacket, encodeOperands]

/-- The last operand of a row: nothing is left on the line. -/
theorem readOperands_last {k : OperandKind} {b p : List Byte} (h : operandPacket b k = some p) :
    readOperands [k] (printOperands [b]) = some (p, []) := by
  have hr := readOperand_printOperand b []
  rw [List.append_nil] at hr
  rw [readOperands, printOperands, hr]
  simp only [h]
  rfl

theorem printOperands_cons_cons (b b' : List Byte) (bs : List (List Byte)) :
    printOperands (b :: b' :: bs) = ' ' :: printOperand b ++ ',' :: printOperands (b' :: bs) := rfl

/-- An operand with another one after its comma. -/
theorem readOperands_more {k k' : OperandKind} {ks : List OperandKind} {b b' p : List Byte}
    {bs : List (List Byte)} (h : operandPacket b k = some p) :
    readOperands (k :: k' :: ks) (printOperands (b :: b' :: bs)) =
      (readOperands (k' :: ks) (printOperands (b' :: bs))).map (fun r => (p ++ r.1, r.2)) := by
  have hr := readOperand_printOperand b (',' :: printOperands (b' :: bs))
  rw [readOperands, printOperands_cons_cons, hr]
  simp only [h]
  rfl

/-- Printed operands are read back as their packet bytes, to the end of the line. -/
theorem readOperands_printOperands {ks : List OperandKind} {bs : List (List Byte)} {r : List Byte}
    (h : operandsPacket ks bs = some r) : readOperands ks (printOperands bs) = some (r, []) := by
  induction ks generalizing bs r with
  | nil =>
    cases bs with
    | nil =>
      cases h
      rfl
    | cons b bs => cases h
  | cons k ks ih =>
    cases bs with
    | nil => cases h
    | cons b bs =>
      obtain ⟨p, q, hp, hq, rfl⟩ := operandsPacket_cons h
      cases ks with
      | nil =>
        cases bs with
        | nil =>
          cases hq
          rw [List.append_nil]
          exact readOperands_last hp
        | cons b' bs => cases hq
      | cons k' ks =>
        cases bs with
        | nil => cases hq
        | cons b' bs => rw [readOperands_more hp, ih hq]; rfl

/-! ## The mnemonic -/

theorem mnemonic_isWordChar (o : Op) : ∀ c ∈ mnemonic o, isWordChar c = true := by
  have h : (mnemonic o).all isWordChar = true := by cases o <;> decide +kernel
  exact List.all_eq_true.mp h

theorem mnemonic_ne_nil (o : Op) : mnemonic o ≠ [] := by
  cases o <;> decide

/-- A mnemonic begins the line: no blank stands before it. -/
theorem skipBlanks_mnemonic_append (o : Op) (t : List Char) :
    skipBlanks (mnemonic o ++ t) = mnemonic o ++ t := by
  cases h : mnemonic o with
  | nil => exact absurd h (mnemonic_ne_nil o)
  | cons c cs =>
    have hc := mnemonic_isWordChar o c (by simp [h])
    rw [isWordChar, Bool.and_eq_true, Bool.not_eq_true'] at hc
    exact List.dropWhile_cons_of_neg (by simp [hc.1])

/-- No two rows share a mnemonic (R74). -/
theorem find_mnemonic (o : Op) :
    Op.all.find? (fun o' => mnemonic o' == mnemonic o) = some o := by
  cases o <;> decide +kernel

/-- A blank or the end of the line follows the mnemonic. -/
theorem takeWhile_printOperands (bs : List (List Byte)) :
    (printOperands bs).takeWhile isWordChar = [] := by
  match bs with
  | [] | [_] | _ :: _ :: _ => rfl

theorem dropWhile_printOperands (bs : List (List Byte)) :
    (printOperands bs).dropWhile isWordChar = printOperands bs := by
  match bs with
  | [] | [_] | _ :: _ :: _ => rfl

/-- The word the line begins with, and what follows it. -/
theorem takeWhile_printInstr (i : Instr) :
    (printInstr i).takeWhile isWordChar = mnemonic i.op := by
  rw [printInstr, List.takeWhile_append_of_pos (mnemonic_isWordChar i.op), takeWhile_printOperands,
    List.append_nil]

theorem dropWhile_printInstr (i : Instr) :
    (printInstr i).dropWhile isWordChar = printOperands (operandList i) := by
  rw [printInstr, List.dropWhile_append_of_pos (mnemonic_isWordChar i.op), dropWhile_printOperands]

end Sys2Proof.Machine
end

section
/-! The obligations on packets, their textual form and responses (30_encoding.md). -/

namespace Sys2Proof.Machine

/-- Settles O1: the opcode finds the row, and the row's reader takes the operands off again. -/
theorem decodeOfEncodeIsTheCommand : Obligations.DecodeOfEncodeIsTheCommand := fun i h =>
  (decode_encode i).trans (decodeOperands_encodeOperands h)

/-- Settles O2: the opcode names the row of the command read, and its reader drops no byte. -/
theorem encodeOfDecodeIsThePacket : Obligations.EncodeOfDecodeIsThePacket := by
  intro p i h
  obtain ⟨o, q, rfl, ho⟩ := decode_ok h
  obtain ⟨rfl, rfl, hw⟩ := decodeOperands_ok ho
  exact ⟨rfl, hw⟩

/-- Settles O3: a byte that names a row is one of the fourteen. -/
theorem unmappedOpcodesAreIllegal : Obligations.UnmappedOpcodesAreIllegal := by
  intro b p hb
  rw [decode_cons]
  cases ho : Op.ofByte b with
  | none => rfl
  | some o => exact absurd (Op.code_of_ofByte ho ▸ o.code_toNat_mem) hb

/-- Settles O4. -/
theorem workedEncodingsDecode : Obligations.WorkedEncodingsDecode :=
  ⟨rfl, rfl, rfl, rfl, rfl, rfl, rfl, rfl, rfl, rfl, rfl⟩

/-- Settles O5: the mnemonic names the row, and the row's kinds read the operands back. -/
theorem printedCommandAssembles : Obligations.PrintedCommandAssembles := by
  intro i
  have hskip : skipBlanks (printInstr i) = printInstr i := skipBlanks_mnemonic_append i.op _
  have hread := readOperands_printOperands (operandsPacket_operandList i)
  simp only [assemble, hskip, takeWhile_printInstr, dropWhile_printInstr, find_mnemonic, hread]
  rfl

/-- Settles O9: the pseudocode's end gives status and payload, and the common frame sends them. -/
theorem everyCommandAnswersOnce : Obligations.EveryCommandAnswersOnce := by
  intro i s
  have hends := runOf_ends i s
  obtain ⟨-, hlasterr, hcfg, hinputs⟩ := hends.sameFrame
  refine ⟨_, (runOf i s).1.status, (runOf i s).1.payload, exec_eq_nextOf i s, hends.nextOf_rsp,
    CmdEnd.payload_of_status_ne_ok, hends.payload_length_le, ?_⟩
  unfold nextOf
  split <;> simp [hlasterr, hcfg, hinputs]

end Sys2Proof.Machine
end

section
/-! The obligation on the key derivation (40_kdf.md), and what it needs: the frame's two ends as
`answered` states (44_commands.md rule R210), and the derived key block by block. -/

namespace Sys2Proof

/-- `Kdf` with the iteration count of R6 filled in: block 1 whole, block 2 cut to 12 bytes (R106). -/
theorem kdf_val_eq_blocks (pw : List Byte) (salt : Bytes 8) :
    (kdf pw salt).val =
      pbkdf2Block pw salt.val 10000 1 ++ (pbkdf2Block pw salt.val 10000 2).take 12 := by
  rw [kdf_val, kdfIter_eq, pbkdf2]

end Sys2Proof

namespace Sys2Proof.Machine

/-- A command that returns a payload changes nothing after its pseudocode but `LASTERR` and the
responses (R210). -/
theorem complete_ok (p : List Byte) (s : State) :
    complete (.ok p, s) = .next (s.answered .ok (okPacket p)) := rfl

/-- A command that raises an error is answered with the bare code (R210, R250). -/
theorem complete_raise (e : Status) (s : State) :
    complete (.raise e, s) = .next (s.answered e (errPacket (BitVec.ofNat 8 e.code))) := rfl

/-- Settles O39: KDF ends with the derived key or with the capacity error, on the state it was
given. -/
theorem kdfResult : Obligations.KdfResult := by
  intro pw salt s
  have hexec : exec (.kdf pw salt) s = complete (runKdf pw salt s) :=
    exec_eq_complete (i := .kdf pw salt) nofun s
  refine ⟨rfl, ?_⟩
  obtain ⟨hlong, hrun⟩ | ⟨hfits, hrun⟩ := runKdf_cases pw salt s
  · refine ⟨fun hfits => absurd hfits (Nat.not_le.mpr hlong), fun _ => ?_⟩
    rw [hexec, hrun, complete_raise]
    rfl
  · refine ⟨fun _ => ?_, fun hlong => absurd hfits (Nat.not_le.mpr hlong)⟩
    rw [hexec, hrun, complete_ok, okPacket_of_length_32 (kdf pw salt).property, kdf_val_eq_blocks]

end Sys2Proof.Machine
end

section
/-! The obligations on the cipher engine (41_cipher.md): the block cipher and its inverse round by
round, the chaining block by block, the padding, and the two body functions. -/

namespace Sys2Proof

/-! ## The block cipher -/

/-- The middle rounds undone last key first, seen through the row shift and the substitution of the
final round (R138, R140). -/
theorem foldl_decRound_foldl_encRound (ks : List AesState) (s : AesState) :
    ks.reverse.foldl decRound (shiftRows (subBytes (ks.foldl encRound s))) =
      shiftRows (subBytes s) := by
  induction ks generalizing s with
  | nil => rfl
  | cons k ks ih =>
    rw [List.foldl_cons, List.reverse_cons, List.foldl_append, ih]
    exact decRound_encRound s k

@[simp] theorem blockDec_blockEnc (key : Bytes 32) (b : Bytes 16) :
    blockDec key (blockEnc key b) = b := by
  simp only [blockDec, blockEnc, AesState.ofBlock_toBlock, addRoundKey_cancel,
    foldl_decRound_foldl_encRound, invShiftRows_shiftRows, invSubBytes_subBytes,
    AesState.toBlock_ofBlock]

/-- Settles O53: each inverse round undoes its round, and the key words are those of the cipher. -/
theorem blockDecUndoesBlockEnc : Obligations.BlockDecUndoesBlockEnc :=
  blockDec_blockEnc

/-! ## Chaining -/

@[simp] theorem cbcDecBlocks_cbcEncBlocks (key : Bytes 32) (prev : Bytes 16)
    (ps : List (Bytes 16)) : cbcDecBlocks key prev (cbcEncBlocks key prev ps) = ps := by
  induction ps generalizing prev with
  | nil => rfl
  | cons p ps ih => simp only [cbcEncBlocks, cbcDecBlocks, blockDec_blockEnc, xorBlock_cancel, ih]

/-- `CbcDec` undoes `CbcEnc` on a whole number of blocks (R141, R142). -/
theorem cbcDec_cbcEnc (key : Bytes 32) (iv : Bytes 16) {p : List Byte} (h : p.length % 16 = 0) :
    cbcDec key iv (cbcEnc key iv p) = p := by
  rw [cbcDec, cbcEnc, blocks16_joinBlocks, cbcDecBlocks_cbcEncBlocks, joinBlocks_blocks16 h]

/-! ## Padding -/

theorem pad_length_mod (p : List Byte) : (pad p).length % 16 = 0 := by
  rw [pad_length, Nat.mul_mod_right]

/-- Any count from 1 to 16 that completes the last block is the one `Pad` appends (R143). -/
theorem pad_eq_append_replicate {p : List Byte} {n : Nat} (hpos : 1 ≤ n) (hle : n ≤ 16)
    (hblocks : (p.length + n) % 16 = 0) : pad p = p ++ List.replicate n (BitVec.ofNat 8 n) := by
  have hn : 16 - p.length % 16 = n := by omega
  rw [pad, hn]

/-- Settles O51: the count is the definition's, and the length is that of the completed blocks. -/
theorem padAddsItsOwnCount : Obligations.PadAddsItsOwnCount := fun p =>
  ⟨16 - p.length % 16, by omega, by omega, rfl, rfl, pad_length p⟩

/-- The byte `Unpad` reads as the count: the last of the appended ones (R144). -/
theorem getD_last_append_replicate (p : List Byte) {n : Nat} (hpos : 1 ≤ n) (b : Byte) :
    (p ++ List.replicate n b).getD ((p ++ List.replicate n b).length - 1) 0 = b := by
  have hi : p.length + n - 1 - p.length < n := by omega
  rw [List.length_append, List.length_replicate, List.getD_append_right _ _ _ _ (by omega),
    List.getD_eq_getElem _ _ (by simpa using hi), List.getElem_replicate]

/-- What `Pad` made is accepted, and its count cut off (R144). -/
theorem unpad_pad (p : List Byte) : unpad (pad p) = some p := by
  obtain ⟨n, hpos, hle, -, hpad, -⟩ := padAddsItsOwnCount p
  have hlen : (pad p).length = p.length + n := by rw [hpad]; simp
  have hlast : ((pad p).getD ((pad p).length - 1) 0).toNat = n := by
    rw [hpad, getD_last_append_replicate p hpos, BitVec.toNat_ofNat]
    omega
  have hdata : (pad p).length - n = p.length := by omega
  have hall : ((pad p).drop p.length).all (· == BitVec.ofNat 8 n) = true := by
    rw [hpad, List.drop_left]
    simp
  unfold unpad
  rw [if_neg (by have := pad_length_mod p; omega)]
  simp only [hlast, hdata]
  rw [if_neg (by omega), if_pos hall, hpad, List.take_left]

/-- What `Unpad` accepts it has checked to be padded: the last byte's count is from 1 to 16 and
fills the tail, which completes the blocks (R144). -/
theorem eq_pad_of_unpad_eq_some {s p : List Byte} (h : unpad s = some p) : s = pad p := by
  unfold unpad at h
  split at h
  · cases h
  next hblocks =>
  dsimp only at h
  generalize (s.getD (s.length - 1) 0).toNat = n at h
  split at h
  · cases h
  next hcount =>
  split at h
  next hall =>
    obtain rfl : s.take (s.length - n) = p := Option.some.inj h
    have hlen : (s.take (s.length - n)).length + n = s.length := by
      rw [List.length_take]
      omega
    have htail : s.drop (s.length - n) = List.replicate n (BitVec.ofNat 8 n) := by
      refine List.eq_replicate_iff.mpr ⟨?_, fun b hb => ?_⟩
      · rw [List.length_drop]
        omega
      · exact eq_of_beq (List.all_eq_true.mp hall b hb)
    rw [pad_eq_append_replicate (n := n) (by omega) (by omega) (by omega), ← htail,
      List.take_append_drop]
  · cases h

/-- Settles O52: the accepted strings are the padded ones. -/
theorem unpadAcceptsExactlyPad : Obligations.UnpadAcceptsExactlyPad := fun _ p =>
  ⟨eq_pad_of_unpad_eq_some, fun h => h ▸ unpad_pad p⟩

/-! ## The two body functions -/

@[simp] theorem encryptBody_length (key : Bytes 32) (iv : Bytes 16) (pt : List Byte) :
    (encryptBody key iv pt).length = 16 * (pt.length / 16 + 1) := by
  rw [encryptBody_eq, cbcEnc, joinBlocks_length, cbcEncBlocks_length, blocks16_length, pad_length,
    Nat.mul_div_cancel_left _ (by decide)]

/-- A ciphertext passes the length check of `DecryptBody` (R146, R148). -/
theorem decryptBody_encryptBody (key : Bytes 32) (iv : Bytes 16) (pt : List Byte) :
    decryptBody key iv (encryptBody key iv pt) = some pt := by
  have hlen := encryptBody_length key iv pt
  rw [decryptBody, if_neg (by omega), encryptBody_eq, cbcDec_cbcEnc key iv (pad_length_mod pt),
    unpad_pad]

/-- Settles O54: unchaining gives the padded plaintext back, and `Unpad` accepts it. -/
theorem decryptBodyUndoesEncryptBody : Obligations.DecryptBodyUndoesEncryptBody :=
  decryptBody_encryptBody

/-- Settles O55: chaining keeps the length of the padded plaintext. -/
theorem ciphertextLength : Obligations.CiphertextLength := by
  intro key v pt
  have hlen := encryptBody_length key v pt
  exact ⟨hlen, by omega, by omega, by omega, by omega, encryptBody_length key v []⟩

end Sys2Proof
end

section
/-! The obligations on the tag and the comparator (42_hmac_compare.md). -/

namespace Sys2Proof

/-- The value R178 prints: no data under the zero key. -/
theorem hmacSha256_zero_key_nil :
    hmacSha256 (List.replicate 32 0) [] =
      [0xb6, 0x13, 0x67, 0x9a, 0x08, 0x14, 0xd9, 0xec, 0x77, 0x2f, 0x95, 0xd7, 0x78, 0xc3, 0x5f,
       0xc5, 0xff, 0x16, 0x97, 0xc4, 0x93, 0x71, 0x56, 0x53, 0xc6, 0xc7, 0x12, 0x14, 0x42, 0x92,
       0xc5, 0xad] := by
  decide +kernel

/-- Settles O50: the comparator's verdict is equality, and equal strings have equal lengths. -/
theorem comparatorIsEquality : Obligations.ComparatorIsEquality := fun a b =>
  ⟨ctEq_eq_true_iff a b, fun hlen => by
    rw [ctEq_eq_decide, decide_eq_false_iff_not]
    exact fun heq => hlen (congrArg List.length heq)⟩

end Sys2Proof

namespace Sys2Proof.Machine

/-- TAG ends with the keyed hash or with the capacity error, on the state it was given (R178). -/
theorem exec_tag_cases (k : Bytes 32) (d : List Byte) (s : State) :
    (maxMsg s.cfg < d.length ∧
      exec (.tag k d) s = .next (s.answered .inputSize (errPacket 0x04))) ∨
    (d.length ≤ maxMsg s.cfg ∧
      exec (.tag k d) s = .next (s.answered .ok (okPacket (hmacSha256 k.val d)))) := by
  have hexec : exec (.tag k d) s = complete (runTag k d s) :=
    exec_eq_complete (i := .tag k d) nofun s
  obtain ⟨hlong, hrun⟩ | ⟨hfits, hrun⟩ := runTag_cases k d s <;> rw [hexec, hrun]
  · exact .inl ⟨hlong, complete_raise _ s⟩
  · exact .inr ⟨hfits, complete_ok _ s⟩

/-- CTEQ ends with the capacity error on the state it was given, or records whether its operands are
equal and returns the same verdict (R179). -/
theorem exec_cteq_cases (a b : List Byte) (s : State) :
    ((maxMsg s.cfg < a.length ∨ maxMsg s.cfg < b.length) ∧
      exec (.cteq a b) s = .next (s.answered .inputSize (errPacket 0x04))) ∨
    (a.length ≤ maxMsg s.cfg ∧ b.length ≤ maxMsg s.cfg ∧
      exec (.cteq a b) s = .next ((s.setEq (decide (a = b))).answered .ok
        (okPacket [if a = b then 0x01 else 0x00]))) := by
  have hexec : exec (.cteq a b) s = complete (runCteq a b s) :=
    exec_eq_complete (i := .cteq a b) nofun s
  obtain ⟨hlong, hrun⟩ | ⟨ha, hb, hrun⟩ := runCteq_cases a b s <;> rw [hexec, hrun]
  · exact .inl ⟨hlong, complete_raise _ s⟩
  · refine .inr ⟨ha, hb, ?_⟩
    simp only [ctEq_eq_decide, decide_eq_true_iff]
    exact complete_ok _ _

/-- Settles O40: TAG has two ends, told apart by the length of the data; the tag of R175 is the same
hash of header and ciphertext. -/
theorem tagResult : Obligations.TagResult := by
  refine ⟨fun k d s => ⟨rfl, ?_⟩, fun _ _ _ => rfl, hmacSha256_zero_key_nil⟩
  obtain ⟨hlong, hexec⟩ | ⟨hfits, hexec⟩ := exec_tag_cases k d s
  · exact ⟨fun hfits => absurd hfits (Nat.not_le.mpr hlong), fun _ => hexec⟩
  · refine ⟨fun _ => ?_, fun hlong => absurd hfits (Nat.not_le.mpr hlong)⟩
    rw [hexec, okPacket_of_length_32 (hmacSha256_length k.val d)]

/-- Settles O41: CTEQ has two ends, told apart by the lengths of its operands; past the capacity
check the verdict is equality. -/
theorem cteqResult : Obligations.CteqResult := by
  intro a b s
  refine ⟨rfl, ?_⟩
  obtain ⟨hlong, hexec⟩ | ⟨ha, hb, hexec⟩ := exec_cteq_cases a b s
  · exact ⟨fun ha hb => absurd hlong (not_or.mpr ⟨Nat.not_lt.mpr ha, Nat.not_lt.mpr hb⟩),
      fun _ => hexec⟩
  · refine ⟨fun _ _ => ⟨fun heq => ?_, fun hne => ?_⟩,
      fun hlong => absurd hlong (not_or.mpr ⟨Nat.not_lt.mpr ha, Nat.not_lt.mpr hb⟩)⟩
    · rw [hexec, decide_eq_true heq, if_pos heq]
      rfl
    · rw [hexec, decide_eq_false hne, if_neg hne]
      rfl

end Sys2Proof.Machine
end

section
/-! The obligations on the header read back (43_frame.md), and what they need: the ends of `GET_HDR`
(44_commands.md rule R210), and the header a Decryptor rebuilds from the fields it parsed. -/

namespace Sys2Proof

/-- Two adjoining slices make one (R8). -/
theorem slice_append_slice (m : List Byte) {i j k : Nat} (hij : i ≤ j) (hjk : j ≤ k) :
    slice m i j ++ slice m j k = slice m i k := by
  have hdrop : m.drop j = (m.drop i).drop (j - i) := by
    rw [List.drop_drop, Nat.add_sub_cancel' hij]
  have hlen : k - i = (j - i) + (k - j) := by omega
  rw [slice, slice, slice, hdrop, hlen, List.take_add]

/-- A prefix of at least two bytes is those two bytes and a slice (R8). -/
theorem take_eq_cons_cons_slice {m : List Byte} {n : Nat} (hn : 2 ≤ n) (hm : 2 ≤ m.length) :
    m.take n = m.getD 0 0 :: m.getD 1 0 :: slice m 2 n := by
  match m, n with
  | _ :: _ :: _, _ + 2 => rfl

end Sys2Proof

namespace Sys2Proof.Machine

/-! ## The ends of GET_HDR -/

theorem exec_getHdr_of_ctx_eq_none {s : State} (h : s.ctx = .none) :
    exec .getHdr s = .next (s.answered .sequence (errPacket 0x09)) := by
  have hexec : exec .getHdr s = complete (runGetHdr s) := exec_eq_complete (i := .getHdr) nofun s
  obtain ⟨-, hrun⟩ | ⟨hctx, -⟩ := runGetHdr_cases s
  · rw [hexec, hrun, complete_raise]
    rfl
  · exact absurd h hctx

theorem exec_getHdr_of_ctx_ne_none {s : State} (h : s.ctx ≠ .none) :
    exec .getHdr s = .next (s.answered .ok (okPacket s.hdr)) := by
  have hexec : exec .getHdr s = complete (runGetHdr s) := exec_eq_complete (i := .getHdr) nofun s
  obtain ⟨hctx, -⟩ | ⟨-, hrun⟩ := runGetHdr_cases s
  · exact absurd hctx h
  · rw [hexec, hrun, complete_ok]

/-! ## The header, mode by mode -/

theorem State.hdr_of_mode_password {s : State} (h : s.mode = .password) :
    s.hdr = 0x03 :: 0x01 :: (s.esalt.val ++ s.hsalt.val ++ s.iv.val) := by
  rw [State.hdr, h]
  rfl

theorem State.hdr_of_mode_keys {s : State} (h : s.mode = .keys) :
    s.hdr = 0x03 :: 0x00 :: s.iv.val := by
  rw [State.hdr, h]
  rfl

/-- Settles O23: GET_HDR ends by whether there is a context, and the mode gives the header. -/
theorem getHdrResult : Obligations.GetHdrResult := by
  refine ⟨rfl, fun s => ⟨exec_getHdr_of_ctx_eq_none, fun hctx hmode => ?_, fun hctx hmode => ?_⟩⟩
  · rw [exec_getHdr_of_ctx_ne_none hctx, State.hdr_of_mode_password hmode]
  · rw [exec_getHdr_of_ctx_ne_none hctx, State.hdr_of_mode_keys hmode]

/-! ## The header of a Decryptor -/

/-- The three fields of a password header, in order, are its bytes after the first two (R80). -/
theorem headerFields_password_val {m : List Byte} (hm : 34 ≤ m.length) :
    (headerFields m .password).esalt.val ++ (headerFields m .password).hsalt.val ++
      (headerFields m .password).iv.val = slice m 2 34 := by
  have hes : (slice m 2 10).length = 8 := slice_length (by omega)
  have hhs : (slice m 10 18).length = 8 := slice_length (by omega)
  have hiv : (slice m 18 34).length = 16 := slice_length hm
  rw [headerFields, Bytes.fit_val hes, Bytes.fit_val hhs, Bytes.fit_val hiv,
    slice_append_slice m (by decide) (by decide), slice_append_slice m (by decide) (by decide)]

/-- The IV of a key-pair header is its bytes after the first two (R81). -/
theorem headerFields_keys_iv_val {m : List Byte} (hm : 18 ≤ m.length) :
    (headerFields m .keys).iv.val = slice m 2 18 :=
  Bytes.fit_val (slice_length hm)

/-- A password object loaded with the fields of an accepted header shows that header (R192, R193). -/
theorem State.loadPassword_hdr_eq_take (s : State) (c : Ctx) (pw : List Byte) {m : List Byte}
    (hm : 34 ≤ m.length) (h0 : m.getD 0 0 = 0x03) (h1 : m.getD 1 0 = 0x01) :
    (s.loadPassword c pw (headerFields m .password).esalt (headerFields m .password).hsalt
      (headerFields m .password).iv).hdr = m.take 34 := by
  rw [State.hdr_of_mode_password rfl, State.loadPassword_esalt, State.loadPassword_hsalt,
    State.loadPassword_iv, headerFields_password_val hm,
    take_eq_cons_cons_slice (by decide) (by omega), h0, h1]

/-- A key-pair object loaded with the IV of an accepted header shows that header (R192, R193). -/
theorem State.loadCtx_keys_hdr_eq_take (s : State) (c : Ctx) (es hs : Bytes 8) (ek hk : Bytes 32)
    {m : List Byte} (hm : 18 ≤ m.length) (h0 : m.getD 0 0 = 0x03) (h1 : m.getD 1 0 = 0x00) :
    (s.loadCtx c .keys es hs (headerFields m .keys).iv ek hk).hdr = m.take 18 := by
  rw [State.hdr_of_mode_keys rfl, State.loadCtx_iv, headerFields_keys_iv_val hm,
    take_eq_cons_cons_slice (by decide) (by omega), h0, h1]

/-- The end of a command leaves the header it shows (R192, R210). -/
theorem State.answered_hdr (s : State) (e : Status) (p : List Byte) :
    (s.answered e p).hdr = s.hdr := rfl

/-- DEC_BUILD_PW of a message that passes its checks loads a Decryptor with the fields of its header
(R218). -/
theorem exec_decBuildPw_of_accepted {pw m : List Byte} {s : State} (hpw : pw.length ≤ s.cfg.maxPw)
    (hmin : minMsg ≤ m.length) (hmax : m.length ≤ maxMsg s.cfg) (h0 : m.getD 0 0 = versionByte)
    (h1 : m.getD 1 0 = Mode.password.byte) :
    exec (.decBuildPw pw m) s = .next ((s.loadPassword .dec pw (headerFields m .password).esalt
      (headerFields m .password).hsalt (headerFields m .password).iv).answered .ok
        (okPacket [])) := by
  have hexec : exec (.decBuildPw pw m) s = complete (runDecBuildPw pw m s) :=
    exec_eq_complete (i := .decBuildPw pw m) nofun s
  obtain ⟨hsize, -⟩ | ⟨-, -, hshort, -⟩ | ⟨-, -, -, hformat, -⟩ | ⟨-, -, -, -, -, hrun⟩ :=
    runDecBuildPw_cases pw m s
  · omega
  · omega
  · exact absurd hformat (not_or.mpr ⟨not_not.mpr h0, not_not.mpr h1⟩)
  · rw [hexec, hrun, complete_ok]

/-- DEC_BUILD_KEYS of a message that passes its checks loads a Decryptor with the IV of its header
and no salts (R219). -/
theorem exec_decBuildKeys_of_accepted {ek hk : Bytes 32} {m : List Byte} {s : State}
    (hmin : minMsg ≤ m.length) (hmax : m.length ≤ maxMsg s.cfg) (h0 : m.getD 0 0 = versionByte)
    (h1 : m.getD 1 0 = Mode.keys.byte) :
    exec (.decBuildKeys ek hk m) s = .next ((s.loadCtx .dec .keys (Bytes.zero 8) (Bytes.zero 8)
      (headerFields m .keys).iv ek hk).answered .ok (okPacket [])) := by
  have hexec : exec (.decBuildKeys ek hk m) s = complete (runDecBuildKeys ek hk m s) :=
    exec_eq_complete (i := .decBuildKeys ek hk m) nofun s
  obtain ⟨hsize, -⟩ | ⟨-, hshort, -⟩ | ⟨-, -, hformat, -⟩ | ⟨-, -, -, -, hrun⟩ :=
    runDecBuildKeys_cases ek hk m s
  · omega
  · omega
  · exact absurd hformat (not_or.mpr ⟨not_not.mpr h0, not_not.mpr h1⟩)
  · rw [hexec, hrun, complete_ok]

/-- Settles O33: an accepted build loads the parsed fields, which put together are the header, and
GET_HDR shows them. -/
theorem decryptorHeaderIsTheReceivedOne : Obligations.DecryptorHeaderIsTheReceivedOne := by
  refine ⟨fun pw m s hpw hmin hmax h0 h1 =>
    ⟨_, exec_decBuildPw_of_accepted hpw hmin hmax h0 h1, ?_⟩,
    fun ek hk m s hmin hmax h0 h1 => ⟨_, exec_decBuildKeys_of_accepted hmin hmax h0 h1, ?_⟩⟩
  · rw [exec_getHdr_of_ctx_ne_none (by nofun), State.answered_hdr,
      State.loadPassword_hdr_eq_take _ _ _ (by omega) h0 h1]
  · rw [exec_getHdr_of_ctx_ne_none (by nofun), State.answered_hdr,
      State.loadCtx_keys_hdr_eq_take _ _ _ _ _ _ (by omega) h0 h1]

end Sys2Proof.Machine
end

section
/-! SUPPORT. The ends of a command are exactly those of its pseudocode, so that what a statement
claims of a command under some guards is one constructor of `Ends`
(44_commands.md rules R210 to R221). -/

namespace Sys2Proof.Machine

/-! ## The parser, by its guards -/

section
variable {m : List Byte} {want : Mode}

theorem parseHeader_of_short (h : m.length < minMsg) : parseHeader m want = .error .shortInput :=
  if_pos h

theorem parseHeader_of_bad_byte (hlen : minMsg ≤ m.length)
    (hbad : m.getD 0 0 ≠ versionByte ∨ m.getD 1 0 ≠ want.byte) :
    parseHeader m want = .error .format := by
  rw [parseHeader, if_neg (Nat.not_lt.mpr hlen)]
  by_cases h0 : m.getD 0 0 = versionByte
  · rw [if_neg (not_not.mpr h0), if_pos (hbad.resolve_left (not_not.mpr h0))]
  · rw [if_pos h0]

theorem parseHeader_of_good_bytes (hlen : minMsg ≤ m.length) (h0 : m.getD 0 0 = versionByte)
    (h1 : m.getD 1 0 = want.byte) : parseHeader m want = .ok (headerFields m want) := by
  rw [parseHeader, if_neg (Nat.not_lt.mpr hlen), if_neg (not_not.mpr h0), if_neg (not_not.mpr h1)]
end

/-! ## The Decryptor builds, by what the parser answers -/

section
variable {m : List Byte} {s : State}

theorem runDecBuildPw_of_parse_error {pw : List Byte} {e : Status}
    (hpw : pw.length ≤ s.cfg.maxPw) (hm : m.length ≤ maxMsg s.cfg)
    (h : parseHeader m .password = .error e) : runDecBuildPw pw m s = (.raise e, s.zeroCtx) := by
  simp [runDecBuildPw, State.passwordTooLong, State.messageTooLong, hpw, hm, h]

theorem runDecBuildPw_of_opens {pw : List Byte} (h : s.Opens pw m) :
    runDecBuildPw pw m s = (.ok [], s.opened pw m) := by
  have hfits : ¬ (s.cfg.maxPw < pw.length ∨ maxMsg s.cfg < m.length) :=
    not_or.mpr ⟨Nat.not_lt.mpr h.password, Nat.not_lt.mpr h.size⟩
  simp only [runDecBuildPw, State.passwordTooLong, State.messageTooLong, State.zeroCtx_cfg, hfits,
    parseHeader_of_good_bytes h.long h.version h.mode]
  rfl

theorem runDecBuildKeys_of_parse_error {ek hk : Bytes 32} {e : Status}
    (hm : m.length ≤ maxMsg s.cfg) (h : parseHeader m .keys = .error e) :
    runDecBuildKeys ek hk m s = (.raise e, s.zeroCtx) := by
  simp [runDecBuildKeys, State.messageTooLong, Nat.not_lt.mpr hm, h]

theorem runDecBuildKeys_of_parse_ok {ek hk : Bytes 32} {f : Header}
    (hm : m.length ≤ maxMsg s.cfg) (h : parseHeader m .keys = .ok f) :
    runDecBuildKeys ek hk m s =
      (.ok [], s.loadCtx .dec .keys (Bytes.zero 8) (Bytes.zero 8) f.iv ek hk) := by
  simp [runDecBuildKeys, State.messageTooLong, Nat.not_lt.mpr hm, h]
end

/-! ## DECRYPT at the comparison -/

section
variable {m : List Byte} {s : State} (hm : m.length ≤ maxMsg s.cfg) (hctx : s.ctx = .dec)
  (hroom : hdrLen s.mode + tagLen ≤ m.length)
include hm hctx hroom

theorem runDecrypt_of_verdict_false (hv : s.tagVerdict m = false) :
    runDecrypt m s = (.raise .hmac, s.setEq false) := by
  simp [runDecrypt, State.messageTooLong, Nat.not_lt.mpr hm, hctx, Nat.not_lt.mpr hroom, hv]

theorem runDecrypt_of_body_none (hv : s.tagVerdict m = true)
    (hbody : decryptBody s.ekey s.iv (ctOf m (hdrLen s.mode)) = none) :
    runDecrypt m s = (.raise .unpad, s.setEq true) := by
  simp [runDecrypt, State.messageTooLong, Nat.not_lt.mpr hm, hctx, Nat.not_lt.mpr hroom, hv, hbody]

theorem runDecrypt_of_body_some {pt : List Byte} (hv : s.tagVerdict m = true)
    (hbody : decryptBody s.ekey s.iv (ctOf m (hdrLen s.mode)) = some pt) :
    runDecrypt m s = (.ok pt, s.setEq true) := by
  simp [runDecrypt, State.messageTooLong, Nat.not_lt.mpr hm, hctx, Nat.not_lt.mpr hroom, hv, hbody]
end

/-! ## DECRYPT_MSG, by its build -/

section
variable {pw m : List Byte} {s : State}

/-- A build that is refused leaves nothing more to empty (R211, R221). -/
theorem runDecryptMsg_of_build_refused {e : Status}
    (h : runDecBuildPw pw m s = (.raise e, s.zeroCtx)) :
    runDecryptMsg pw m s = (.raise e, s.zeroCtx) := runDecryptMsg_refused (u := s.zeroCtx) h

/-- A message the build accepts is opened in the context built, which is emptied again (R221). -/
theorem runDecryptMsg_of_opens {e : CmdEnd} {b : Bool} (h : s.Opens pw m)
    (hrun : runDecrypt m (s.opened pw m) = (e, (s.opened pw m).setEq b)) :
    runDecryptMsg pw m s = (e, s.zeroCtx.setEq b) := by
  rw [runDecryptMsg_built (runDecBuildPw_of_opens h), hrun]
  rfl
end

/-! ## The draws of ENCRYPT_MSG -/

theorem State.first_fail_unique {s : State} {k k' : Nat} (hok : ∀ j, j < k → s.answer j ≠ .fail)
    (hfail : s.answer k = .fail) (hok' : ∀ j, j < k' → s.answer j ≠ .fail)
    (hfail' : s.answer k' = .fail) : k = k' := by
  rcases Nat.lt_trichotomy k k' with h | h | h
  · exact absurd hfail (hok' k h)
  · exact h
  · exact absurd hfail' (hok k' h)

theorem State.answer_ne_fail_of_three_ok {s : State} {b0 b1 b2 : Bytes 16}
    (h0 : s.answer 0 = .ok b0) (h1 : s.answer 1 = .ok b1) (h2 : s.answer 2 = .ok b2) {k : Nat}
    (hk : k < 3) : s.answer k ≠ .fail := by
  obtain rfl | rfl | rfl : k = 0 ∨ k = 1 ∨ k = 2 := by omega
  · simp [h0]
  · simp [h1]
  · simp [h2]

/-- ENCRYPT_MSG has one end: the checks refuse it, or the answers say which draw fails first, or what
the three draws give (R191, R217). -/
theorem Ends.encryptMsg_unique {s : State} {pw pt : List Byte} {r r' : CmdEnd × State}
    (h : Ends s (.encryptMsg pw pt) r) (h' : Ends s (.encryptMsg pw pt) r') : r = r' := by
  cases h with
  | encryptMsgSize hsize =>
    cases h' with
    | encryptMsgSize => rfl
    | encryptMsgRng | encryptMsg => omega
  | encryptMsgRng _ _ _ hk hok hfail =>
    cases h' with
    | encryptMsgSize => omega
    | encryptMsgRng _ _ _ _ hok' hfail' => rw [State.first_fail_unique hok hfail hok' hfail']
    | encryptMsg _ _ _ h0 h1 h2 =>
      exact absurd hfail (State.answer_ne_fail_of_three_ok h0 h1 h2 hk)
  | encryptMsg _ _ _ h0 h1 h2 =>
    cases h' with
    | encryptMsgSize => omega
    | encryptMsgRng _ _ _ hk _ hfail =>
      exact absurd hfail (State.answer_ne_fail_of_three_ok h0 h1 h2 hk)
    | encryptMsg _ _ _ h0' h1' h2' =>
      cases h0.symm.trans h0'
      cases h1.symm.trans h1'
      cases h2.symm.trans h2'
      rfl

/-! ## Every command -/

/-- An end whose guards hold is the pseudocode's: `Ends` is `runOf` as a relation. -/
theorem Ends.runOf_eq {s : State} {i : Instr} {r : CmdEnd × State} (h : Ends s i r) :
    runOf i s = r := by
  cases h with
  | getStatus | clear | encBuildKeys => rfl
  | getHdrNone hctx => exact if_pos hctx
  | getHdr hctx => exact if_neg hctx
  | @encBuildPwSize pw es hs v hsize =>
    obtain ⟨-, hrun⟩ | ⟨hpos, hfits, -⟩ := runEncBuildPw_cases pw es hs v s
    · exact hrun
    · omega
  | @encBuildPw pw es hs v hpos hfits =>
    obtain ⟨hsize, -⟩ | ⟨-, -, hrun⟩ := runEncBuildPw_cases pw es hs v s
    · omega
    · exact hrun
  | encryptSize hsize => exact if_pos hsize
  | encryptSequence hfits hctx => exact (if_neg (Nat.not_lt.mpr hfits)).trans (if_pos hctx)
  | encrypt hfits hctx =>
    exact (if_neg (Nat.not_lt.mpr hfits)).trans (if_neg (not_not.mpr hctx))
  | encryptMsgSize hsize => exact runEncryptMsg_refused hsize
  | encryptMsgRng hpos hpw hpt hk hok hfail =>
    exact (runOf_ends _ s).encryptMsg_unique (.encryptMsgRng hpos hpw hpt hk hok hfail)
  | encryptMsg hpos hpw hpt h0 h1 h2 =>
    exact (runOf_ends _ s).encryptMsg_unique (.encryptMsg hpos hpw hpt h0 h1 h2)
  | decBuildPwSize hsize => exact if_pos hsize
  | decBuildPwShort hpw hm hlen =>
    exact runDecBuildPw_of_parse_error hpw hm (parseHeader_of_short hlen)
  | decBuildPwFormat hpw hm hlen hbad =>
    exact runDecBuildPw_of_parse_error hpw hm (parseHeader_of_bad_byte hlen hbad)
  | decBuildPw hpw hm hlen h0 h1 => exact runDecBuildPw_of_opens ⟨hpw, hm, hlen, h0, h1⟩
  | decBuildKeysSize hsize => exact if_pos hsize
  | decBuildKeysShort hm hlen =>
    exact runDecBuildKeys_of_parse_error hm (parseHeader_of_short hlen)
  | decBuildKeysFormat hm hlen hbad =>
    exact runDecBuildKeys_of_parse_error hm (parseHeader_of_bad_byte hlen hbad)
  | decBuildKeys hm hlen h0 h1 =>
    exact runDecBuildKeys_of_parse_ok hm (parseHeader_of_good_bytes hlen h0 h1)
  | decryptSize hsize => exact if_pos hsize
  | decryptSequence hm hctx => exact (if_neg (Nat.not_lt.mpr hm)).trans (if_pos hctx)
  | decryptNoTag hm hctx hlen =>
    exact (if_neg (Nat.not_lt.mpr hm)).trans ((if_neg (not_not.mpr hctx)).trans (if_pos hlen))
  | decryptHmac hm hctx hroom hv => exact runDecrypt_of_verdict_false hm hctx hroom hv
  | decryptUnpad hm hctx hroom hv hbody => exact runDecrypt_of_body_none hm hctx hroom hv hbody
  | decrypt hm hctx hroom hv hbody => exact runDecrypt_of_body_some hm hctx hroom hv hbody
  | decryptMsgSize hsize => exact runDecryptMsg_of_build_refused (if_pos hsize)
  | decryptMsgShort hpw hm hlen =>
    exact runDecryptMsg_of_build_refused
      (runDecBuildPw_of_parse_error hpw hm (parseHeader_of_short hlen))
  | decryptMsgFormat hpw hm hlen hbad =>
    exact runDecryptMsg_of_build_refused
      (runDecBuildPw_of_parse_error hpw hm (parseHeader_of_bad_byte hlen hbad))
  | decryptMsgHmac ho hv =>
    exact runDecryptMsg_of_opens ho
      (runDecrypt_of_verdict_false (s := s.opened _ _) ho.size rfl ho.long hv)
  | decryptMsgUnpad ho hv hbody =>
    exact runDecryptMsg_of_opens ho
      (runDecrypt_of_body_none (s := s.opened _ _) ho.size rfl ho.long hv hbody)
  | decryptMsg ho hv hbody =>
    exact runDecryptMsg_of_opens ho
      (runDecrypt_of_body_some (s := s.opened _ _) ho.size rfl ho.long hv hbody)
  | kdfSize hsize | tagSize hsize | cteqSize hsize => exact if_pos hsize
  | kdf hfits | tag hfits => exact if_neg (Nat.not_lt.mpr hfits)
  | cteq ha hb => exact if_neg (not_or.mpr ⟨Nat.not_lt.mpr ha, Nat.not_lt.mpr hb⟩)

/-- A command that ends with a payload changes nothing more but `LASTERR` and the responses (R210). -/
theorem Ends.exec_ok {s u : State} {i : Instr} {p : List Byte} (h : Ends s i (.ok p, u))
    (hi : i ≠ .getStatus) : exec i s = .next (u.answered .ok (okPacket p)) := by
  rw [exec_eq_complete hi, h.runOf_eq, complete_ok]

/-- A command that ends with an error is answered with the bare code (R210, R250). -/
theorem Ends.exec_raise {s u : State} {i : Instr} {e : Status} (h : Ends s i (.raise e, u))
    (hi : i ≠ .getStatus) :
    exec i s = .next (u.answered e (errPacket (BitVec.ofNat 8 e.code))) := by
  rw [exec_eq_complete hi, h.runOf_eq, complete_raise]

end Sys2Proof.Machine
end

section
/-! The obligations on the step and on the housekeeping commands, and the two tables over all
commands: what starts from the empty context, and which context a command needs and leaves
(44_commands.md rules R210 to R213, R224). -/

namespace Sys2Proof.Machine

/-- Settles O6: the equation of the step for a packet that decodes. -/
theorem stepRunsDecodedCommand : Obligations.StepRunsDecodedCommand := fun _ _ _ _ hin hd =>
  step_packet_ok hin hd

/-- Settles O21: the response is all that GET_STATUS writes; the examples are the sum of R26. -/
theorem getStatusResult : Obligations.GetStatusResult := by
  refine ⟨rfl, fun s => rfl, rfl, fun s heq hmode hctx hlast => ?_, fun s heq hmode hctx hlast => ?_⟩
  · rw [State.statusByte, heq, hmode, hctx, hlast]
    rfl
  · rw [State.statusByte, heq, hmode, hctx, hlast]
    rfl

/-- Settles O22: `EQ` is bit 7 of STATUS, and is all of STATUS that is left. -/
theorem clearResult : Obligations.ClearResult := by
  refine ⟨rfl, fun s => rfl, fun s hstatus => ⟨_, rfl, ?_⟩⟩
  have heq : s.eq = true := by
    rw [← s.statusByte_bit7, hstatus]
    rfl
  rw [State.statusByte, State.conclude_eq, State.zeroCtx_eq, heq]
  rfl

/-! ## Starting from the empty context -/

/-- A build or one-shot that ends with an error leaves the context empty (R211). -/
theorem Ends.ctxEmpty_of_status_ne_ok {s : State} {i : Instr} {r : CmdEnd × State} (h : Ends s i r)
    (hw : writesCtx i = true) (he : r.1.status ≠ .ok) : r.2.CtxEmpty := by
  cases h with
  | encBuildPwSize | encryptMsgSize | encryptMsgRng
  | decBuildPwSize | decBuildPwShort | decBuildPwFormat
  | decBuildKeysSize | decBuildKeysShort | decBuildKeysFormat
  | decryptMsgSize | decryptMsgShort | decryptMsgFormat | decryptMsgHmac | decryptMsgUnpad =>
    exact ⟨rfl, rfl, rfl, rfl, rfl, rfl, rfl⟩
  | clear | encBuildPw | encBuildKeys | encryptMsg | decBuildPw | decBuildKeys | decryptMsg =>
    exact absurd rfl he
  | getStatus | getHdrNone | getHdr | encryptSize | encryptSequence | encrypt
  | decryptSize | decryptSequence | decryptNoTag | decryptHmac | decryptUnpad | decrypt
  | kdfSize | kdf | tagSize | tag | cteqSize | cteq => cases hw

/-- Settles O15: the builds and one-shots are commands that write the context; they read nothing of
the old one, and their errors leave none. -/
theorem buildsStartFromTheEmptyContext : Obligations.BuildsStartFromTheEmptyContext := by
  refine ⟨fun s => ⟨s.zeroCtx_ctxEmpty, rfl, rfl, rfl, rfl, rfl, rfl, rfl⟩, fun i s hi => ?_⟩
  have hw : writesCtx i = true ∧ i ≠ .getStatus := by
    cases i with
    | encBuildPw | encBuildKeys | encryptMsg | decBuildPw | decBuildKeys | decryptMsg =>
      exact ⟨rfl, nofun⟩
    | getStatus | clear | getHdr | encrypt | decrypt | kdf | tag | cteq => exact hi.elim
  obtain ⟨hw, hstatus⟩ := hw
  refine ⟨?_, _, exec_eq_nextOf i s, fun hlast => ?_⟩
  · rw [exec_eq_nextOf, exec_eq_nextOf, runOf_zeroCtx hw]
  · rw [nextOf_lasterr hstatus] at hlast
    exact ((runOf_ends i s).ctxEmpty_of_status_ne_ok hw hlast).of_sameCtx (nextOf_sameCtx i _)

/-! ## The sequencing table -/

/-- The context a command that ended with status `e` leaves (R224). -/
def ctxAfter (s : State) (e : Status) : Instr → Ctx
  | .encBuildPw _ _ _ _ | .encBuildKeys _ _ _ => if e = .ok then .enc else .none
  | .decBuildPw _ _ | .decBuildKeys _ _ _ => if e = .ok then .dec else .none
  | .clear | .encryptMsg _ _ | .decryptMsg _ _ => .none
  | _ => s.ctx

/-- The context a command must find to succeed (R224). -/
def CtxNeeded (s : State) : Instr → Prop
  | .encrypt _ => s.ctx = .enc
  | .decrypt _ => s.ctx = .dec
  | .getHdr => s.ctx ≠ .none
  | _ => True

theorem Ends.ctx_ctxAfter {s : State} {i : Instr} {r : CmdEnd × State} (h : Ends s i r) :
    r.2.ctx = ctxAfter s r.1.status i := by
  cases h <;> rfl

theorem Ends.ctxNeeded_of_status_ok {s : State} {i : Instr} {r : CmdEnd × State} (h : Ends s i r)
    (he : r.1.status = .ok) : CtxNeeded s i := by
  cases h with
  | encrypt _ hctx | decrypt _ hctx | getHdr hctx => exact hctx
  | getHdrNone | encryptSize | encryptSequence
  | decryptSize | decryptSequence | decryptNoTag | decryptHmac | decryptUnpad => cases he
  | getStatus | clear | encBuildPwSize | encBuildPw | encBuildKeys
  | encryptMsgSize | encryptMsgRng | encryptMsg
  | decBuildPwSize | decBuildPwShort | decBuildPwFormat | decBuildPw
  | decBuildKeysSize | decBuildKeysShort | decBuildKeysFormat | decBuildKeys
  | decryptMsgSize | decryptMsgShort | decryptMsgFormat
  | decryptMsgHmac | decryptMsgUnpad | decryptMsg
  | kdfSize | kdf | tagSize | tag | cteqSize | cteq => trivial

/-- Settles O16: `ctxAfter` and `CtxNeeded` are the columns of the table of R224. -/
theorem sequencingTable : Obligations.SequencingTable := by
  refine ⟨fun i s => ⟨_, exec_eq_nextOf i s, ?_⟩,
    fun s p rest why hin hd => ⟨_, step_packet_error hin hd, rfl⟩⟩
  by_cases hi : i = .getStatus
  · subst hi
    rfl
  · have hafter := (runOf_ends i s).ctx_ctxAfter
    have hneeded := (runOf_ends i s).ctxNeeded_of_status_ok
    rw [← (nextOf_sameCtx i _).ctx, ← nextOf_lasterr hi] at hafter
    rw [← nextOf_lasterr hi] at hneeded
    cases i with
    | getStatus => exact absurd rfl hi
    | clear => exact ⟨hafter, rfl⟩
    | encrypt | decrypt | getHdr => exact ⟨hafter, hneeded⟩
    | encBuildPw | encBuildKeys | decBuildPw | decBuildKeys | encryptMsg | decryptMsg
    | kdf | tag | cteq => exact hafter

end Sys2Proof.Machine
end

section
/-! The obligations on the encrypt side (44_commands.md rules R214 to R217), and what they need: the
message of an Encryptor taken apart. -/

namespace Sys2Proof.Machine

/-! ## The message -/

theorem hdrLen_eq_ite (m : Mode) : hdrLen m = if m = .password then 34 else 18 := by
  cases m <;> rfl

theorem Mode.byte_eq_ite (m : Mode) : m.byte = if m = .password then 0x01 else 0x00 := by
  cases m <;> rfl

/-- A header is the version byte, the mode byte and the fields of the mode (R80, R81). -/
theorem State.hdr_eq_cons_cons (s : State) : ∃ fields, s.hdr = versionByte :: s.mode.byte :: fields := by
  unfold State.hdr
  split
  · exact ⟨_, rfl⟩
  · exact ⟨_, rfl⟩

theorem State.frame_hdr_getD_zero (s : State) (c t : List Byte) :
    (frame s.hdr c t).getD 0 0 = versionByte := by
  obtain ⟨fields, h⟩ := s.hdr_eq_cons_cons
  rw [frame, h]
  rfl

theorem State.frame_hdr_getD_one (s : State) (c t : List Byte) :
    (frame s.hdr c t).getD 1 0 = s.mode.byte := by
  obtain ⟨fields, h⟩ := s.hdr_eq_cons_cons
  rw [frame, h]
  rfl

section
variable (s : State) (pt : List Byte)

theorem State.message_eq_frame : s.message pt =
    frame s.hdr (encryptBody s.ekey s.iv pt) (macTag s.hkey s.hdr (encryptBody s.ekey s.iv pt)) := rfl

theorem State.message_take_hdrLen : (s.message pt).take (hdrLen s.mode) = s.hdr := by
  rw [s.message_eq_frame, frame, List.append_assoc, ← s.hdr_length, List.take_left]

theorem State.ctOf_message : ctOf (s.message pt) (hdrLen s.mode) = encryptBody s.ekey s.iv pt := by
  rw [← s.hdr_length]
  exact ctOf_frame _ _ _ (macTag_length _ _ _)

theorem State.tagOf_message :
    tagOf (s.message pt) = macTag s.hkey s.hdr (encryptBody s.ekey s.iv pt) :=
  tagOf_frame _ _ _ (macTag_length _ _ _)
end

/-! ## The builds and ENCRYPT -/

/-- Settles O24: each guard is that of one end, and loading writes the whole context. -/
theorem encBuildPwResult : Obligations.EncBuildPwResult := fun _ _ _ _ _ =>
  ⟨rfl, fun hpos hfits => (Ends.encBuildPw hpos hfits).exec_ok nofun,
    fun hsize => (Ends.encBuildPwSize hsize).exec_raise nofun⟩

/-- Settles O25: the fixed operands have 32, 32 and 16 bytes. -/
theorem encBuildKeysResult : Obligations.EncBuildKeysResult := by
  intro ek hk v s
  refine ⟨rfl, ?_, Ends.encBuildKeys.exec_ok nofun⟩
  simp [encode, encodeOperands]

/-- ENCRYPT with an Encryptor returns its message and leaves the context (R216). -/
theorem exec_encrypt_of_enc {pt : List Byte} {s : State} (hfits : pt.length ≤ s.cfg.maxData)
    (hctx : s.ctx = .enc) :
    exec (.encrypt pt) s = .next (s.answered .ok (okPacket (s.message pt))) :=
  (Ends.encrypt hfits hctx).exec_ok nofun

/-- Settles O26: the message is `State.message`, and each guard is that of one end. -/
theorem encryptResult : Obligations.EncryptResult := fun _ _ =>
  ⟨rfl, exec_encrypt_of_enc,
    fun hsize => (Ends.encryptSize hsize).exec_raise nofun,
    fun hfits hctx => (Ends.encryptSequence hfits hctx).exec_raise nofun⟩

/-- Settles O27: the payload is a frame, and the frame is cut where it was joined. -/
theorem encryptPayloadLayout : Obligations.EncryptPayloadLayout := by
  intro pt s hfits hctx
  refine ⟨s.message pt, exec_encrypt_of_enc hfits hctx, ?_, s.frame_hdr_getD_zero _ _, ?_,
    s.message_take_hdrLen pt, s.ctOf_message pt, ?_⟩
  · rw [s.message_length, hdrLen_eq_ite]
    rfl
  · rw [s.message_eq_frame, s.frame_hdr_getD_one, Mode.byte_eq_ite]
  · rw [s.tagOf_message, s.ctOf_message]

/-! ## ENCRYPT_MSG -/

/-- Settles O28: three good draws end in the message of the context loaded with them. -/
theorem encryptMsgResult : Obligations.EncryptMsgResult := fun _ _ _ _ _ _ hpos hpw hpt h0 h1 h2 =>
  (Ends.encryptMsg hpos hpw hpt h0 h1 h2).exec_ok nofun

/-- Settles O29: the checks come before any draw, and the first failing draw is the last made. -/
theorem encryptMsgErrors : Obligations.EncryptMsgErrors := fun _ _ _ =>
  ⟨rfl, fun hsize => (Ends.encryptMsgSize hsize).exec_raise nofun,
    fun hpos hpw hpt _ hk hok hfail =>
      (Ends.encryptMsgRng hpos hpw hpt hk hok hfail).exec_raise nofun⟩

/-- Settles O30: both ways load the same context, and the message depends on the context alone. -/
theorem encryptMsgIsBuildThenEncrypt : Obligations.EncryptMsgIsBuildThenEncrypt := by
  intro pw pt s b0 b1 b2 hpos hpw hpt h0 h1 h2
  exact ⟨_, _, _, _, (Ends.encryptMsg hpos hpw hpt h0 h1 h2).exec_ok nofun, rfl,
    (Ends.encBuildPw hpos hpw).exec_ok nofun,
    exec_encrypt_of_enc hpt rfl, rfl, rfl⟩

end Sys2Proof.Machine
end

section
/-! The obligations on the decrypt side (44_commands.md rules R218 to R221), and what they need: the
comparison as equality of byte strings, and the parts of a message the statements speak of. -/

namespace Sys2Proof.Machine

/-! ## The comparison -/

/-- The tag is the rest of the message from its last 32 bytes on (R87). -/
theorem tagOf_eq_drop (m : List Byte) : tagOf m = m.drop (m.length - tagLen) := by
  rw [tagOf, slice, List.take_of_length_le (by simp)]

/-- The verdict of DECRYPT is equality of the two tags (R176, R220). -/
theorem State.tagVerdict_eq_decide (s : State) (m : List Byte) :
    s.tagVerdict m = decide (tagOf m = macTag s.hkey s.hdr (ctOf m (hdrLen s.mode))) :=
  ctEq_eq_decide _ _

/-- Header and ciphertext part are all of the message before the tag (R87). -/
theorem take_append_ctOf {m : List Byte} {h : Nat} (hroom : h + tagLen ≤ m.length) :
    m.take h ++ ctOf m h = m.take (m.length - tagLen) :=
  slice_append_slice m (Nat.zero_le h) (Nat.le_sub_of_add_le hroom)

/-- What `reachesTag` says of a DECRYPT: the guards of its last three ends, the operands of
`DecryptBody`, and the verdict. -/
theorem reachesTag_decrypt {s : State} {m : List Byte} {hk : Bytes 32} {signed : List Byte}
    {ek : Bytes 32} {v : Bytes 16} {ct tag : List Byte}
    (h : reachesTag s (.decrypt m) hk signed ek v ct tag) :
    m.length ≤ maxMsg s.cfg ∧ s.ctx = .dec ∧ hdrLen s.mode + tagLen ≤ m.length ∧
      decryptBody ek v ct = decryptBody s.ekey s.iv (ctOf m (hdrLen s.mode)) ∧
      s.tagVerdict m = decide (tag = hmacSha256 hk.val signed) := by
  obtain ⟨hm, hctx, hroom, rfl, rfl, rfl, rfl, rfl, rfl⟩ := h
  rw [s.tagVerdict_eq_decide, tagOf_eq_drop, hdrLen_eq_ite]
  exact ⟨hm, hctx, hroom, rfl, rfl⟩

/-- What `reachesTag` says of a DECRYPT_MSG: the build accepts the message, and in the context it
fills the header is the message's own (R192, R221). -/
theorem reachesTag_decryptMsg {s : State} {pw m : List Byte} {hk : Bytes 32} {signed : List Byte}
    {ek : Bytes 32} {v : Bytes 16} {ct tag : List Byte}
    (h : reachesTag s (.decryptMsg pw m) hk signed ek v ct tag) :
    s.Opens pw m ∧
      decryptBody ek v ct = decryptBody (s.opened pw m).ekey (s.opened pw m).iv (ctOf m 34) ∧
      (s.opened pw m).tagVerdict m = decide (tag = hmacSha256 hk.val signed) := by
  obtain ⟨hpw, hm, hlen, h0, h1, rfl, rfl, rfl, rfl, rfl, rfl⟩ := h
  have hhdr : (s.opened pw m).hdr = m.take 34 :=
    s.loadPassword_hdr_eq_take .dec pw (by omega) h0 h1
  have hsigned : m.take 34 ++ ctOf m 34 = m.take (m.length - tagLen) := take_append_ctOf hlen
  refine ⟨⟨hpw, hm, hlen, h0, h1⟩, rfl, ?_⟩
  rw [State.tagVerdict_eq_decide, tagOf_eq_drop, macTag, hhdr, State.loadPassword_mode, hdrLen,
    hsigned]
  rfl

/-! ## The builds -/

theorem minMsg_le_maxMsg (c : Config) : minMsg ≤ maxMsg c := by
  have h := c.maxData_ge
  simp only [minMsg, maxMsg]
  omega

/-- Settles O31: each guard is that of one end, and an accepted message is long enough for every
field of its header. -/
theorem decBuildPwResult : Obligations.DecBuildPwResult := by
  intro pw m s
  refine ⟨rfl, fun hpw hlen hm h0 h1 => ⟨_, _, _, ?_, ?_, ?_,
      (Ends.decBuildPw hpw hm hlen h0 h1).exec_ok nofun⟩,
    fun hsize => (Ends.decBuildPwSize hsize).exec_raise nofun,
    fun ⟨hpw, hshort⟩ => (Ends.decBuildPwShort hpw
      (hshort.le.trans (minMsg_le_maxMsg s.cfg)) hshort).exec_raise nofun,
    fun ⟨hpw, hlen, hm, hbad⟩ => (Ends.decBuildPwFormat hpw hm hlen hbad).exec_raise nofun⟩
  · exact Bytes.fit_val (slice_length (by omega))
  · exact Bytes.fit_val (slice_length (by omega))
  · exact Bytes.fit_val (slice_length (by omega))

/-- Settles O32: as for the password build, with the IV alone in the header. -/
theorem decBuildKeysResult : Obligations.DecBuildKeysResult := by
  intro ek hk m s
  exact ⟨rfl, fun hlen hm h0 h1 => ⟨_, headerFields_keys_iv_val (by omega),
      (Ends.decBuildKeys hm hlen h0 h1).exec_ok nofun⟩,
    fun hsize => (Ends.decBuildKeysSize hsize).exec_raise nofun,
    fun hshort => (Ends.decBuildKeysShort
      (hshort.le.trans (minMsg_le_maxMsg s.cfg)) hshort).exec_raise nofun,
    fun ⟨hlen, hm, hbad⟩ => (Ends.decBuildKeysFormat hm hlen hbad).exec_raise nofun⟩

/-! ## DECRYPT -/

/-- Settles O34: the verdict chooses between ERR_HMAC and the body, the body between the two ends
behind a matching tag. -/
theorem decryptResult : Obligations.DecryptResult := by
  intro m s hk signed ek v ct tag hreach
  obtain ⟨hm, hctx, hroom, hbody, hverdict⟩ := reachesTag_decrypt hreach
  rw [hbody]
  exact ⟨fun pt htag hpt => (Ends.decrypt hm hctx hroom
      (hverdict.trans (decide_eq_true htag)) hpt).exec_ok nofun,
    fun htag hnone => (Ends.decryptUnpad hm hctx hroom
      (hverdict.trans (decide_eq_true htag)) hnone).exec_raise nofun,
    fun htag => (Ends.decryptHmac hm hctx hroom
      (hverdict.trans (decide_eq_false htag))).exec_raise nofun⟩

/-- Settles O35: the guards of the first three ends, each excluding the one before. -/
theorem decryptEarlyErrors : Obligations.DecryptEarlyErrors := by
  intro m s
  refine ⟨rfl, fun hsize => (Ends.decryptSize hsize).exec_raise nofun,
    fun ⟨hm, hctx⟩ => (Ends.decryptSequence hm hctx).exec_raise nofun, fun ⟨hm, hctx, hshort⟩ => ?_⟩
  rw [← hdrLen_eq_ite] at hshort
  exact (Ends.decryptNoTag hm hctx hshort).exec_raise nofun

/-- Messages of one length that agree behind the header have the same tag (R87). -/
theorem tagOf_congr {m m' : List Byte} {h : Nat} (hlen : m.length = m'.length)
    (hdrop : m.drop h = m'.drop h) (hroom : h + tagLen ≤ m.length) : tagOf m = tagOf m' := by
  have hpos : m.length - tagLen = h + (m.length - tagLen - h) := by omega
  rw [tagOf_eq_drop, tagOf_eq_drop, ← hlen, hpos, ← List.drop_drop, ← List.drop_drop, hdrop]

/-- Messages of one length that agree behind the header have the same ciphertext part (R87). -/
theorem ctOf_congr {m m' : List Byte} {h : Nat} (hlen : m.length = m'.length)
    (hdrop : m.drop h = m'.drop h) : ctOf m h = ctOf m' h := by
  rw [ctOf, ctOf, slice, slice, hlen, hdrop]

theorem State.tagVerdict_congr {m m' : List Byte} {s : State} (hlen : m.length = m'.length)
    (hdrop : m.drop (hdrLen s.mode) = m'.drop (hdrLen s.mode))
    (hroom : hdrLen s.mode + tagLen ≤ m.length) : s.tagVerdict m = s.tagVerdict m' := by
  rw [State.tagVerdict, State.tagVerdict, tagOf_congr hlen hdrop hroom, ctOf_congr hlen hdrop]

/-- DECRYPT reads the length of its operand and what stands behind the header (R220, R292). -/
theorem runDecrypt_congr {m m' : List Byte} {s : State} (hlen : m.length = m'.length)
    (hdrop : m.drop (hdrLen s.mode) = m'.drop (hdrLen s.mode)) :
    runDecrypt m s = runDecrypt m' s := by
  simp only [runDecrypt, State.messageTooLong]
  rw [hlen]
  by_cases hroom : hdrLen s.mode + tagLen ≤ m.length
  · rw [ctOf_congr hlen hdrop, State.tagVerdict_congr hlen hdrop hroom]
  · have hshort : m'.length < hdrLen s.mode + tagLen := by omega
    simp only [if_pos hshort]

/-- Settles O36: the pseudocode does not tell the two operands apart. -/
theorem decryptIgnoresOperandHeader : Obligations.DecryptIgnoresOperandHeader := by
  intro m m' s hlen hdrop
  rw [← hdrLen_eq_ite] at hdrop
  exact congrArg complete (runDecrypt_congr hlen hdrop)

/-! ## DECRYPT_MSG -/

/-- Settles O37: as for DECRYPT, in the context the build has filled. -/
theorem decryptMsgResult : Obligations.DecryptMsgResult := by
  intro pw m s hk signed ek v ct tag hreach
  obtain ⟨hopens, hbody, hverdict⟩ := reachesTag_decryptMsg hreach
  rw [hbody]
  exact ⟨fun pt htag hpt => (Ends.decryptMsg hopens
      (hverdict.trans (decide_eq_true htag)) hpt).exec_ok nofun,
    fun htag hnone => (Ends.decryptMsgUnpad hopens
      (hverdict.trans (decide_eq_true htag)) hnone).exec_raise nofun,
    fun htag => (Ends.decryptMsgHmac hopens
      (hverdict.trans (decide_eq_false htag))).exec_raise nofun⟩

/-- Settles O38: the errors are those of the build, and leave the context it emptied. -/
theorem decryptMsgEarlyErrors : Obligations.DecryptMsgEarlyErrors := fun _ _ s =>
  ⟨rfl, fun hsize => (Ends.decryptMsgSize hsize).exec_raise nofun,
    fun ⟨hpw, hshort⟩ => (Ends.decryptMsgShort hpw
      (hshort.le.trans (minMsg_le_maxMsg s.cfg)) hshort).exec_raise nofun,
    fun ⟨hpw, hlen, hm, hbad⟩ => (Ends.decryptMsgFormat hpw hm hlen hbad).exec_raise nofun⟩

end Sys2Proof.Machine
end

section
/-! The obligations on whole sequences (44_commands.md rules R222, R223), and what they need: what a
Decryptor makes of a frame with the header of its own key, whatever tag the frame ends with. -/

namespace Sys2Proof.Machine

/-! ## A frame in its own context -/

/-- Two contexts hold the same key: they agree on all but `CTX`. -/
structure State.SameKey (s t : State) : Prop where
  mode : t.mode = s.mode
  esalt : t.esalt = s.esalt
  hsalt : t.hsalt = s.hsalt
  iv : t.iv = s.iv
  ekey : t.ekey = s.ekey
  hkey : t.hkey = s.hkey

theorem State.SameKey.hdr {s t : State} (h : s.SameKey t) : t.hdr = s.hdr := by
  rw [State.hdr, State.hdr, h.mode, h.esalt, h.hsalt, h.iv]

/-- On a frame whose header has the length of the context's, the verdict compares the frame's tag
with the one of the context's header and the frame's ciphertext (R87, R220). -/
theorem State.tagVerdict_frame (s : State) {h c t : List Byte} (hh : h.length = hdrLen s.mode)
    (ht : t.length = tagLen) :
    s.tagVerdict (frame h c t) = decide (t = macTag s.hkey s.hdr c) := by
  rw [State.tagVerdict_eq_decide, tagOf_frame h c t ht, ← hh, ctOf_frame h c t ht]

section
variable {e d : State} (h : e.SameKey d) (pt : List Byte)
include h

/-- The tag of a message matches in every context of the same key. -/
theorem State.SameKey.tagVerdict_message : d.tagVerdict (e.message pt) = true := by
  rw [e.message_eq_frame, d.tagVerdict_frame (by rw [e.hdr_length, h.mode]) (macTag_length _ _ _),
    h.hkey, h.hdr]
  exact decide_eq_true rfl

/-- The body of a message is opened in every context of the same key. -/
theorem State.SameKey.decryptBody_message :
    decryptBody d.ekey d.iv (ctOf (e.message pt) (hdrLen d.mode)) = some pt := by
  rw [h.mode, e.ctOf_message, h.ekey, h.iv, decryptBody_encryptBody]

/-- What ENCRYPT made, DECRYPT opens with a Decryptor of the same key (R222). -/
theorem State.SameKey.exec_decrypt_message (hctx : d.ctx = .dec)
    (hpt : pt.length ≤ d.cfg.maxData) :
    exec (.decrypt (e.message pt)) d = .next ((d.setEq true).answered .ok (okPacket pt)) := by
  have hroom : hdrLen d.mode + tagLen ≤ (e.message pt).length := by
    rw [e.message_length, h.mode]
    omega
  exact (Ends.decrypt (e.message_length_le hpt) hctx hroom (h.tagVerdict_message pt)
    (h.decryptBody_message pt)).exec_ok nofun
end

/-! ## The header of a message, read back by the builds -/

/-- A password header parses to the salts and the IV it was made of (R80, R193). -/
theorem headerFields_frame_password {e : State} (hmode : e.mode = .password) (c t : List Byte) :
    headerFields (frame e.hdr c t) .password = ⟨e.esalt, e.hsalt, e.iv⟩ := by
  rw [State.hdr_of_mode_password hmode]
  simp [headerFields, frame, slice, List.drop_append, List.drop_eq_nil_of_le]

/-- A key-pair header parses to the IV it was made of (R81, R193). -/
theorem headerFields_frame_keys {e : State} (hmode : e.mode = .keys) (c t : List Byte) :
    (headerFields (frame e.hdr c t) .keys).iv = e.iv := by
  rw [State.hdr_of_mode_keys hmode]
  simp [headerFields, frame, slice]

/-- No message is shorter than the shortest the builds accept (R194). -/
theorem State.minMsg_le_message_length (s : State) (pt : List Byte) :
    minMsg ≤ (s.message pt).length := by
  have hmode : 18 ≤ hdrLen s.mode := by cases s.mode <;> decide
  rw [s.message_length, minMsg, tagLen]
  omega

/-! ## A password message with any tag -/

/-- A password context with both keys derived from `pw` (R31, R214). -/
structure State.FromPassword (s : State) (pw : List Byte) : Prop where
  mode : s.mode = .password
  ekey : s.ekey = kdf pw s.esalt
  hkey : s.hkey = kdf pw s.hsalt

theorem State.loadPassword_fromPassword (s : State) (k : Ctx) (pw : List Byte) (es hs : Bytes 8)
    (v : Bytes 16) : (s.loadPassword k pw es hs v).FromPassword pw := ⟨rfl, rfl, rfl⟩

section
variable {e u : State} {pw pt : List Byte} (h : e.FromPassword pw)
include h

/-- DECRYPT_MSG with the password derives the key of the context that made the header (R221). -/
theorem State.FromPassword.sameKey_opened (u : State) (c t : List Byte) :
    e.SameKey (u.opened pw (frame e.hdr c t)) := by
  rw [State.opened, headerFields_frame_password h.mode]
  exact ⟨h.mode.symm, rfl, rfl, rfl, h.ekey.symm, h.hkey.symm⟩

/-- The build accepts a message of the password whatever its tag (R218). -/
theorem State.FromPassword.opens_frame (hpw : pw.length ≤ u.cfg.maxPw)
    (hpt : pt.length ≤ u.cfg.maxData) {t : List Byte} (ht : t.length = tagLen) :
    u.Opens pw (frame e.hdr (encryptBody e.ekey e.iv pt) t) := by
  have hlen : (frame e.hdr (encryptBody e.ekey e.iv pt) t).length = (e.message pt).length := by
    simp [e.message_eq_frame, frame, ht, tagLen]
  exact ⟨hpw, hlen ▸ e.message_length_le hpt, hlen ▸ e.minMsg_le_message_length pt,
    e.frame_hdr_getD_zero _ _, h.mode ▸ e.frame_hdr_getD_one _ _⟩

/-- What a password context made, DECRYPT_MSG with the password opens (R222). -/
theorem State.FromPassword.exec_decryptMsg_message (hpw : pw.length ≤ u.cfg.maxPw)
    (hpt : pt.length ≤ u.cfg.maxData) : exec (.decryptMsg pw (e.message pt)) u =
      .next ((u.zeroCtx.setEq true).answered .ok (okPacket pt)) := by
  have hkey : e.SameKey (u.opened pw (e.message pt)) := h.sameKey_opened u _ _
  exact (Ends.decryptMsg (h.opens_frame hpw hpt (macTag_length _ _ _))
    (hkey.tagVerdict_message pt) (hkey.decryptBody_message pt)).exec_ok nofun

/-- A wrong tag behind the header and ciphertext of a password context is refused (R220, R223). -/
theorem State.FromPassword.exec_decryptMsg_wrong_tag (hpw : pw.length ≤ u.cfg.maxPw)
    (hpt : pt.length ≤ u.cfg.maxData) {t : List Byte} (ht : t.length = tagLen)
    (hne : t ≠ macTag e.hkey e.hdr (encryptBody e.ekey e.iv pt)) :
    exec (.decryptMsg pw (frame e.hdr (encryptBody e.ekey e.iv pt) t)) u =
      .next ((u.zeroCtx.setEq false).answered .hmac (errPacket 0x02)) := by
  have hkey := h.sameKey_opened u (encryptBody e.ekey e.iv pt) t
  refine (Ends.decryptMsgHmac (h.opens_frame hpw hpt ht) ?_).exec_raise nofun
  rw [State.tagVerdict_frame _ (by rw [e.hdr_length, hkey.mode]) ht, hkey.hkey, hkey.hdr]
  exact decide_eq_false hne

end

/-! ## The round trips -/

/-- Settles O56: the message is one of a password context, and DECRYPT_MSG opens those. -/
theorem oneShotRoundTrip : Obligations.OneShotRoundTrip := by
  intro pw pt s b0 b1 b2 hpos hpw hpt h0 h1 h2
  have hfrom := s.loadPassword_fromPassword .enc pw (saltOf b0) (saltOf b1) b2
  exact ⟨_, _, (Ends.encryptMsg hpos hpw hpt h0 h1 h2).exec_ok nofun, rfl, fun u hcfg =>
    ⟨_, hfrom.exec_decryptMsg_message (hcfg ▸ hpw) (hcfg ▸ hpt), rfl, rfl⟩⟩

/-- The end of a command leaves the key. -/
theorem State.SameKey.answered {e d : State} (h : e.SameKey d) (st : Status) (p : List Byte) :
    e.SameKey (d.answered st p) := ⟨h.mode, h.esalt, h.hsalt, h.iv, h.ekey, h.hkey⟩

/-- DEC_BUILD_PW on a message of a password context gives a Decryptor of its key (R218, R222). -/
theorem State.FromPassword.exec_decBuildPw_message {e u : State} {pw pt : List Byte}
    (h : e.FromPassword pw) (hpw : pw.length ≤ u.cfg.maxPw) (hpt : pt.length ≤ u.cfg.maxData) :
    ∃ d, exec (.decBuildPw pw (e.message pt)) u = .next d ∧ e.SameKey d ∧ d.ctx = .dec ∧
      d.cfg = u.cfg := by
  have hopens := h.opens_frame hpw hpt (macTag_length e.hkey e.hdr (encryptBody e.ekey e.iv pt))
  exact ⟨_, exec_decBuildPw_of_accepted hpw hopens.long hopens.size hopens.version hopens.mode,
    (h.sameKey_opened u _ _).answered _ _, rfl, rfl⟩

/-- DEC_BUILD_KEYS with the keys of a key-pair context, on a message of it, gives a Decryptor of its
key (R219, R222). -/
theorem exec_decBuildKeys_message {e u : State} {pt : List Byte} (hmode : e.mode = .keys)
    (hes : e.esalt = Bytes.zero 8) (hhs : e.hsalt = Bytes.zero 8)
    (hpt : pt.length ≤ u.cfg.maxData) :
    ∃ d, exec (.decBuildKeys e.ekey e.hkey (e.message pt)) u = .next d ∧ e.SameKey d ∧
      d.ctx = .dec ∧ d.cfg = u.cfg := by
  have hiv : (headerFields (e.message pt) .keys).iv = e.iv := headerFields_frame_keys hmode _ _
  exact ⟨_, exec_decBuildKeys_of_accepted (e.minMsg_le_message_length pt) (e.message_length_le hpt)
      (e.frame_hdr_getD_zero _ _) (hmode ▸ e.frame_hdr_getD_one _ _),
    ⟨hmode.symm, hes.symm, hhs.symm, hiv, rfl, rfl⟩, rfl, rfl⟩

/-- Settles O57: either build gives the Decryptor the key of the Encryptor. -/
theorem twoStepRoundTrip : Obligations.TwoStepRoundTrip := by
  refine ⟨fun pw pt es hs v s u hpos hpw hpt hcfg => ?_, fun ek hk pt v s u hpt hcfg => ?_⟩
  · have hfrom : State.FromPassword
        ((s.loadPassword .enc pw es hs v).answered .ok (okPacket [])) pw := ⟨rfl, rfl, rfl⟩
    obtain ⟨d, hbuild, hkey, hctx, hd⟩ :=
      hfrom.exec_decBuildPw_message (u := u) (pt := pt) (hcfg ▸ hpw) (hcfg ▸ hpt)
    exact ⟨_, _, _, d, _, (Ends.encBuildPw hpos hpw).exec_ok nofun,
      exec_encrypt_of_enc hpt rfl, rfl, hbuild,
      hkey.exec_decrypt_message pt hctx (hd ▸ hcfg ▸ hpt), rfl⟩
  · obtain ⟨d, hbuild, hkey, hctx, hd⟩ := exec_decBuildKeys_message (pt := pt) (u := u)
      (e := (s.loadCtx .enc .keys (Bytes.zero 8) (Bytes.zero 8) v ek hk).answered .ok (okPacket []))
      rfl rfl rfl (hcfg ▸ hpt)
    exact ⟨_, _, _, d, _, Ends.encBuildKeys.exec_ok nofun,
      exec_encrypt_of_enc hpt rfl, rfl, hbuild,
      hkey.exec_decrypt_message pt hctx (hd ▸ hcfg ▸ hpt), rfl⟩

/-! ## Tampering -/

theorem getD_set_self {m : List Byte} {k : Nat} (hk : k < m.length) (b : Byte) :
    (m.set k b).getD k 0 = b := by
  simp [hk]

/-- A changed byte behind header and ciphertext changes the tag alone. -/
theorem frame_set {h c t : List Byte} {k : Nat} (hk : h.length + c.length ≤ k) (b : Byte) :
    (frame h c t).set k b = frame h c (t.set (k - (h.length + c.length)) b) := by
  rw [← List.length_append] at hk ⊢
  exact List.set_append_right _ _ hk

/-- Settles O58: the format is checked before the tag, and one changed byte makes another tag. -/
theorem certainTamperDetection : Obligations.CertainTamperDetection := by
  intro pw pt es hs v s u b hpw hpt
  have hfrom := s.loadPassword_fromPassword .enc pw es hs v
  generalize s.loadPassword .enc pw es hs v = e at hfrom
  have hsize := e.message_length_le hpt
  have hlong := e.minMsg_le_message_length pt
  have hlen := e.message_length pt
  have hshort : 2 ≤ (e.message pt).length := le_trans (by decide) hlong
  refine ⟨fun hb => ?_, fun hb => ?_, fun k hk hk' hne => ?_⟩
  · refine (Ends.decryptMsgFormat hpw ?_ ?_ (.inl ?_)).exec_raise nofun
    · rwa [List.length_set]
    · rwa [List.length_set]
    · rwa [getD_set_self (by omega)]
  · refine (Ends.decryptMsgFormat hpw ?_ ?_ (.inr ?_)).exec_raise nofun
    · rwa [List.length_set]
    · rwa [List.length_set]
    · rwa [getD_set_self (by omega)]
  · have hset : (e.message pt).set k b = frame e.hdr (encryptBody e.ekey e.iv pt)
        ((macTag e.hkey e.hdr (encryptBody e.ekey e.iv pt)).set (k - _) b) :=
      frame_set (by rwa [e.hdr_length, encryptBody_length, hfrom.mode]) b
    rw [hset]
    refine hfrom.exec_decryptMsg_wrong_tag hpw hpt (List.length_set.trans (macTag_length _ _ _))
      fun htag => hne ?_
    rw [htag, ← e.message_eq_frame] at hset
    rw [← hset]
    exact getD_set_self (by rwa [hlen, hfrom.mode]) b

end Sys2Proof.Machine
end

section
/-! SUPPORT. When each error is due, over all commands (60_exceptions.md rules R251 to R261): a
command ends with an error exactly when that error is due. -/

namespace Sys2Proof.Machine

/-- The condition under which the rules have command `i` end with error `e` in state `s`. No command
raises ERR_TAG_GEN (R252), and ERR_ILLEGAL_CMD is no command's (R261). -/
def ErrorDue (s : State) (i : Instr) : Status → Prop
  | .inputSize => dueInputSize s.cfg i
  | .sequence => dueSequence s i
  | .shortInput => dueShortInput s.cfg i
  | .format => dueFormat s.cfg i
  | .noTag => dueNoTag s i
  | .rng => dueRng s i
  | .hmac => ∃ hk signed ek v ct tag, reachesTag s i hk signed ek v ct tag ∧
      tag ≠ hmacSha256 hk.val signed
  | .unpad => ∃ hk signed ek v ct tag, reachesTag s i hk signed ek v ct tag ∧
      tag = hmacSha256 hk.val signed ∧ decryptBody ek v ct = none
  | .ok | .tagGen | .illegalCmd => False

/-! ## The comparison is reached by what passes the checks before it -/

/-- A DECRYPT with a Decryptor and room for a tag reaches the comparison (R220). -/
theorem reachesTag_decrypt_of_room {s : State} {m : List Byte} (hm : m.length ≤ maxMsg s.cfg)
    (hctx : s.ctx = .dec) (hroom : hdrLen s.mode + tagLen ≤ m.length) :
    reachesTag s (.decrypt m) s.hkey (s.hdr ++ ctOf m (hdrLen s.mode)) s.ekey s.iv
      (ctOf m (hdrLen s.mode)) (m.drop (m.length - tagLen)) := by
  rw [hdrLen_eq_ite] at hroom ⊢
  exact ⟨hm, hctx, hroom, rfl, rfl, rfl, rfl, rfl, rfl⟩

/-- A DECRYPT_MSG whose build accepts the message reaches the comparison (R221). -/
theorem State.Opens.reachesTag {s : State} {pw m : List Byte} (h : s.Opens pw m) :
    reachesTag s (.decryptMsg pw m) (s.opened pw m).hkey (m.take (m.length - tagLen))
      (s.opened pw m).ekey (s.opened pw m).iv (ctOf m 34) (m.drop (m.length - tagLen)) :=
  ⟨h.password, h.size, h.long, h.version, h.mode, rfl, rfl, rfl, rfl, rfl, rfl⟩

/-! ## An error raised is due -/

/-- Each end with an error stands under the guards that make this error due. -/
theorem Ends.errorDue {s : State} {i : Instr} {r : CmdEnd × State} (h : Ends s i r)
    (he : r.1.status ≠ .ok) : ErrorDue s i r.1.status := by
  cases h with
  | encBuildPwSize hsize | encryptSize hsize | encryptMsgSize hsize | decBuildPwSize hsize
  | decBuildKeysSize hsize | decryptSize hsize | decryptMsgSize hsize
  | kdfSize hsize | tagSize hsize | cteqSize hsize => exact hsize
  | getHdrNone hctx => exact hctx
  | encryptSequence hfits hctx | decryptSequence hfits hctx => exact ⟨hfits, hctx⟩
  | encryptMsgRng hpos hpw hpt hk _ hfail => exact ⟨hpos, hpw, hpt, _, hk, hfail⟩
  | decBuildPwShort hpw _ hshort | decryptMsgShort hpw _ hshort => exact ⟨hpw, hshort⟩
  | decBuildKeysShort _ hshort => exact hshort
  | decBuildPwFormat hpw hm hlen hbad | decryptMsgFormat hpw hm hlen hbad =>
    exact ⟨hpw, hlen, hm, hbad⟩
  | decBuildKeysFormat hm hlen hbad => exact ⟨hlen, hm, hbad⟩
  | decryptNoTag hm hctx hshort =>
    rw [hdrLen_eq_ite] at hshort
    exact ⟨hm, hctx, hshort⟩
  | decryptHmac hm hctx hroom hv =>
    have hreach := reachesTag_decrypt_of_room hm hctx hroom
    obtain ⟨-, -, -, -, hverdict⟩ := reachesTag_decrypt hreach
    exact ⟨_, _, _, _, _, _, hreach, of_decide_eq_false (hverdict.symm.trans hv)⟩
  | decryptUnpad hm hctx hroom hv hbody =>
    have hreach := reachesTag_decrypt_of_room hm hctx hroom
    obtain ⟨-, -, -, -, hverdict⟩ := reachesTag_decrypt hreach
    exact ⟨_, _, _, _, _, _, hreach, of_decide_eq_true (hverdict.symm.trans hv), hbody⟩
  | decryptMsgHmac hopens hv =>
    obtain ⟨-, -, hverdict⟩ := reachesTag_decryptMsg hopens.reachesTag
    exact ⟨_, _, _, _, _, _, hopens.reachesTag, of_decide_eq_false (hverdict.symm.trans hv)⟩
  | decryptMsgUnpad hopens hv hbody =>
    obtain ⟨-, -, hverdict⟩ := reachesTag_decryptMsg hopens.reachesTag
    exact ⟨_, _, _, _, _, _, hopens.reachesTag, of_decide_eq_true (hverdict.symm.trans hv),
      hbody⟩
  | getStatus | clear | getHdr | encBuildPw | encBuildKeys | encrypt | encryptMsg | decBuildPw
  | decBuildKeys | decrypt | decryptMsg | kdf | tag | cteq => exact absurd rfl he

/-! ## An error that is due is raised -/

section
variable {s : State} {i : Instr}

theorem ends_of_dueInputSize (h : dueInputSize s.cfg i) :
    ∃ u, Ends s i (.raise .inputSize, u) := by
  cases i with
  | encBuildPw => exact ⟨_, .encBuildPwSize h⟩
  | encrypt => exact ⟨_, .encryptSize h⟩
  | encryptMsg => exact ⟨_, .encryptMsgSize h⟩
  | decBuildPw => exact ⟨_, .decBuildPwSize h⟩
  | decBuildKeys => exact ⟨_, .decBuildKeysSize h⟩
  | decrypt => exact ⟨_, .decryptSize h⟩
  | decryptMsg => exact ⟨_, .decryptMsgSize h⟩
  | kdf => exact ⟨_, .kdfSize h⟩
  | tag => exact ⟨_, .tagSize h⟩
  | cteq => exact ⟨_, .cteqSize h⟩
  | getStatus | clear | getHdr | encBuildKeys => exact h.elim

theorem ends_of_dueSequence (h : dueSequence s i) : ∃ u, Ends s i (.raise .sequence, u) := by
  cases i with
  | encrypt => exact ⟨_, .encryptSequence h.1 h.2⟩
  | decrypt => exact ⟨_, .decryptSequence h.1 h.2⟩
  | getHdr => exact ⟨_, .getHdrNone h⟩
  | getStatus | clear | encBuildPw | encBuildKeys | encryptMsg | decBuildPw | decBuildKeys
  | decryptMsg | kdf | tag | cteq => exact h.elim

theorem ends_of_dueShortInput (h : dueShortInput s.cfg i) :
    ∃ u, Ends s i (.raise .shortInput, u) := by
  have hfits {m : List Byte} (hshort : m.length < minMsg) : m.length ≤ maxMsg s.cfg :=
    hshort.le.trans (minMsg_le_maxMsg s.cfg)
  cases i with
  | decBuildPw => exact ⟨_, .decBuildPwShort h.1 (hfits h.2) h.2⟩
  | decBuildKeys => exact ⟨_, .decBuildKeysShort (hfits h) h⟩
  | decryptMsg => exact ⟨_, .decryptMsgShort h.1 (hfits h.2) h.2⟩
  | getStatus | clear | getHdr | encBuildPw | encBuildKeys | encrypt | encryptMsg | decrypt
  | kdf | tag | cteq => exact h.elim

theorem ends_of_dueFormat (h : dueFormat s.cfg i) : ∃ u, Ends s i (.raise .format, u) := by
  cases i with
  | decBuildPw =>
    obtain ⟨hpw, hlen, hm, hbad⟩ := h
    exact ⟨_, .decBuildPwFormat hpw hm hlen hbad⟩
  | decBuildKeys =>
    obtain ⟨hlen, hm, hbad⟩ := h
    exact ⟨_, .decBuildKeysFormat hm hlen hbad⟩
  | decryptMsg =>
    obtain ⟨hpw, hlen, hm, hbad⟩ := h
    exact ⟨_, .decryptMsgFormat hpw hm hlen hbad⟩
  | getStatus | clear | getHdr | encBuildPw | encBuildKeys | encrypt | encryptMsg | decrypt
  | kdf | tag | cteq => exact h.elim

theorem ends_of_dueNoTag (h : dueNoTag s i) : ∃ u, Ends s i (.raise .noTag, u) := by
  cases i with
  | decrypt =>
    obtain ⟨hm, hctx, hshort⟩ := h
    rw [← hdrLen_eq_ite] at hshort
    exact ⟨_, .decryptNoTag hm hctx hshort⟩
  | getStatus | clear | getHdr | encBuildPw | encBuildKeys | encrypt | encryptMsg | decBuildPw
  | decBuildKeys | decryptMsg | kdf | tag | cteq => exact h.elim

/-- The draws stop at the first that fails, and the command with them (R191, R257). -/
theorem ends_of_dueRng (h : dueRng s i) :
    ∃ k, k < 3 ∧ s.answer k = .fail ∧ (∀ j, j < k → s.answer j ≠ .fail) ∧
      Ends s i (.raise .rng, s.zeroCtx.afterDraws (k + 1)) := by
  cases i with
  | encryptMsg =>
    obtain ⟨hpos, hpw, hpt, n, hn, hfail⟩ := h
    have hex : ∃ k, s.answer k = .fail := ⟨n, hfail⟩
    have hk : Nat.find hex < 3 := (Nat.find_min' hex hfail).trans_lt hn
    have hok : ∀ j, j < Nat.find hex → s.answer j ≠ .fail := fun _ => Nat.find_min hex
    exact ⟨_, hk, Nat.find_spec hex, hok, .encryptMsgRng hpos hpw hpt hk hok (Nat.find_spec hex)⟩
  | getStatus | clear | getHdr | encBuildPw | encBuildKeys | encrypt | decBuildPw | decBuildKeys
  | decrypt | decryptMsg | kdf | tag | cteq => exact h.elim

section
variable {hk ek : Bytes 32} {v : Bytes 16} {signed ct tag : List Byte}

theorem ends_of_tag_ne (h : reachesTag s i hk signed ek v ct tag)
    (htag : tag ≠ hmacSha256 hk.val signed) : ∃ u, Ends s i (.raise .hmac, u) := by
  cases i with
  | decrypt =>
    obtain ⟨hm, hctx, hroom, -, hverdict⟩ := reachesTag_decrypt h
    exact ⟨_, .decryptHmac hm hctx hroom (hverdict.trans (decide_eq_false htag))⟩
  | decryptMsg =>
    obtain ⟨hopens, -, hverdict⟩ := reachesTag_decryptMsg h
    exact ⟨_, .decryptMsgHmac hopens (hverdict.trans (decide_eq_false htag))⟩
  | getStatus | clear | getHdr | encBuildPw | encBuildKeys | encrypt | encryptMsg | decBuildPw
  | decBuildKeys | kdf | tag | cteq => exact h.elim

theorem ends_of_body_none (h : reachesTag s i hk signed ek v ct tag)
    (htag : tag = hmacSha256 hk.val signed) (hbody : decryptBody ek v ct = none) :
    ∃ u, Ends s i (.raise .unpad, u) := by
  cases i with
  | decrypt =>
    obtain ⟨hm, hctx, hroom, hsame, hverdict⟩ := reachesTag_decrypt h
    exact ⟨_, .decryptUnpad hm hctx hroom (hverdict.trans (decide_eq_true htag))
      (hsame.symm.trans hbody)⟩
  | decryptMsg =>
    obtain ⟨hopens, hsame, hverdict⟩ := reachesTag_decryptMsg h
    exact ⟨_, .decryptMsgUnpad hopens (hverdict.trans (decide_eq_true htag))
      (hsame.symm.trans hbody)⟩
  | getStatus | clear | getHdr | encBuildPw | encBuildKeys | encrypt | encryptMsg | decBuildPw
  | decBuildKeys | kdf | tag | cteq => exact h.elim
end

/-- An error that is due is one of the command's ends. -/
theorem ErrorDue.ends {e : Status} (h : ErrorDue s i e) : ∃ u, Ends s i (.raise e, u) := by
  cases e with
  | inputSize => exact ends_of_dueInputSize h
  | sequence => exact ends_of_dueSequence h
  | shortInput => exact ends_of_dueShortInput h
  | format => exact ends_of_dueFormat h
  | noTag => exact ends_of_dueNoTag h
  | rng =>
    obtain ⟨k, -, -, -, hends⟩ := ends_of_dueRng h
    exact ⟨_, hends⟩
  | hmac =>
    obtain ⟨hk, signed, ek, v, ct, tag, hreach, htag⟩ := h
    exact ends_of_tag_ne hreach htag
  | unpad =>
    obtain ⟨hk, signed, ek, v, ct, tag, hreach, htag, hbody⟩ := h
    exact ends_of_body_none hreach htag hbody
  | ok | tagGen | illegalCmd => exact h.elim
end

/-! ## Exactly when it is due -/

/-- A command ends with an error exactly when that error is due (R250). -/
theorem runOf_status_eq_iff_errorDue (i : Instr) (s : State) {e : Status} (he : e ≠ .ok) :
    (runOf i s).1.status = e ↔ ErrorDue s i e := by
  constructor
  · rintro rfl
    exact (runOf_ends i s).errorDue he
  · intro h
    obtain ⟨u, hends⟩ := h.ends
    rw [hends.runOf_eq]
    rfl

theorem nextOf_lasterr_eq_iff_errorDue {i : Instr} (hi : i ≠ .getStatus) (s : State) {e : Status}
    (he : e ≠ .ok) : (nextOf i (runOf i s)).lasterr = e ↔ ErrorDue s i e := by
  rw [nextOf_lasterr hi]
  exact runOf_status_eq_iff_errorDue i s he

/-! ## What an error leaves -/

/-- A command that ends with an error sends the code and an empty payload (R77, R250). -/
theorem nextOf_runOf_rsp_of_error {i : Instr} (hi : i ≠ .getStatus) {s : State} {e : Status}
    (he : e ≠ .ok) (hlast : (nextOf i (runOf i s)).lasterr = e) :
    (nextOf i (runOf i s)).rsp = s.rsp ++ [errPacket (BitVec.ofNat 8 e.code)] := by
  rw [nextOf_lasterr hi] at hlast
  subst hlast
  rw [(runOf_ends i s).nextOf_rsp, CmdEnd.payload_of_status_ne_ok he]
  rfl

/-- Only the two errors behind the comparison find `EQ` written (R24, R267). -/
theorem eqAfter_of_error {e : Status} (hok : e ≠ .ok) (hhmac : e ≠ .hmac) (hunpad : e ≠ .unpad)
    (s : State) (i : Instr) : eqAfter s e i = s.eq := by
  cases i with
  | cteq => exact if_neg hok
  | decrypt | decryptMsg => exact (if_neg (not_or.mpr ⟨hok, hunpad⟩)).trans (if_neg hhmac)
  | getStatus | clear | getHdr | encBuildPw | encBuildKeys | encrypt | encryptMsg | decBuildPw
  | decBuildKeys | kdf | tag => rfl

/-- Behind a comparison that was reached, `EQ` is 1 but for an error of the tag (R24, R220, R221). -/
theorem eqAfter_of_reachesTag {s : State} {i : Instr} {hk ek : Bytes 32} {v : Bytes 16}
    {signed ct tag : List Byte} (h : reachesTag s i hk signed ek v ct tag) :
    eqAfter s .hmac i = false ∧ eqAfter s .unpad i = true := by
  cases i with
  | decrypt | decryptMsg => exact ⟨rfl, rfl⟩
  | getStatus | clear | getHdr | encBuildPw | encBuildKeys | encrypt | encryptMsg | decBuildPw
  | decBuildKeys | kdf | tag | cteq => exact h.elim

/-- No capacity error is behind a draw (R217, R257). -/
theorem runOf_drew_zero_of_dueInputSize {i : Instr} {s : State} (h : dueInputSize s.cfg i) :
    s.Drew 0 (runOf i s).2 := by
  by_cases hi : ∃ pw pt, i = .encryptMsg pw pt
  · obtain ⟨pw, pt, rfl⟩ := hi
    exact runOf_encryptMsg_drew_zero h
  · exact (runOf_ends i s).drew_zero fun pw pt e => hi ⟨pw, pt, e⟩

/-- A command that misses its context is one that writes none (R260). -/
theorem writesCtx_of_dueSequence {s : State} {i : Instr} (h : dueSequence s i) :
    writesCtx i = false := by
  cases i with
  | getHdr | encrypt | decrypt | getStatus | kdf | tag | cteq => rfl
  | clear | encBuildPw | encBuildKeys | encryptMsg | decBuildPw | decBuildKeys | decryptMsg =>
    exact h.elim

/-- The byte of a status code is the code (R77, R251). -/
theorem Status.code_byte_toNat (e : Status) : (BitVec.ofNat 8 e.code).toNat = e.code := by
  cases e <;> rfl

theorem Status.code_byte_ne_one {e : Status} (h : e ≠ .tagGen) : BitVec.ofNat 8 e.code ≠ 1 := by
  cases e with
  | tagGen => exact absurd rfl h
  | ok | hmac | noTag | inputSize | shortInput | rng | unpad | format | sequence | illegalCmd =>
    decide

theorem runOf_status_ne_tagGen (i : Instr) (s : State) : (runOf i s).1.status ≠ .tagGen :=
  (runOf_status_eq_iff_errorDue i s (by decide)).mp

end Sys2Proof.Machine
end

section
/-! The obligations on errors (60_exceptions.md). -/

namespace Sys2Proof.Machine

/-- Settles O7: refusing the packet is the step's whole work. -/
theorem illegalPacketChangesOnlyLasterr : Obligations.IllegalPacketChangesOnlyLasterr :=
  fun _ _ _ _ hin hd => step_packet_error hin hd

/-- Settles O42: the capacity comes before the comparison and the draws. -/
theorem inputSizeErrorExactlyWhenDue : Obligations.InputSizeErrorExactlyWhenDue := by
  intro i s hi
  have hiff := nextOf_lasterr_eq_iff_errorDue hi s (e := .inputSize) (by decide)
  refine ⟨_, exec_eq_nextOf i s, hiff, fun hlast =>
    ⟨nextOf_runOf_rsp_of_error hi (by decide) hlast, ?_, ?_⟩⟩
  · rw [nextOf_runOf_eq, hlast, eqAfter_of_error (by decide) (by decide) (by decide)]
  · exact (nextOf_drew i (runOf_drew_zero_of_dueInputSize (hiff.mp hlast))).draws

/-- Settles O43: the three commands that need a context write none. -/
theorem sequenceErrorExactlyWhenDue : Obligations.SequenceErrorExactlyWhenDue := by
  intro i s hi
  have hiff := nextOf_lasterr_eq_iff_errorDue hi s (e := .sequence) (by decide)
  exact ⟨_, exec_eq_nextOf i s, hiff,
    fun hlast => nextOf_runOf_sameCtx (writesCtx_of_dueSequence (hiff.mp hlast)) s⟩

/-- Settles O44: both are among the errors raised exactly when due. -/
theorem headerErrorsExactlyWhenDue : Obligations.HeaderErrorsExactlyWhenDue := fun i s hi =>
  ⟨_, exec_eq_nextOf i s,
    nextOf_lasterr_eq_iff_errorDue hi s (e := .shortInput) (by decide),
    nextOf_lasterr_eq_iff_errorDue hi s (e := .format) (by decide)⟩

/-! ## ERR_NO_TAG -/

theorem exec_lasterr_eq_noTag_iff {i : Instr} (hi : i ≠ .getStatus) (s : State) :
    ∃ t, exec i s = .next t ∧ (t.lasterr = .noTag ↔ dueNoTag s i) :=
  ⟨_, exec_eq_nextOf i s, nextOf_lasterr_eq_iff_errorDue hi s (e := .noTag) (by decide)⟩

/-- What a build has accepted has room for a tag behind either header (R194, R254). -/
theorem exec_decrypt_lasterr_ne_noTag {m : List Byte} (h : minMsg ≤ m.length) (t : State) :
    ∃ u, exec (.decrypt m) t = .next u ∧ u.lasterr ≠ .noTag := by
  obtain ⟨u, hexec, hiff⟩ := exec_lasterr_eq_noTag_iff (i := .decrypt m) nofun t
  refine ⟨u, hexec, fun hlast => ?_⟩
  obtain ⟨-, -, hshort⟩ := hiff.mp hlast
  have hhdr := hdrLen_le t.mode
  rw [← hdrLen_eq_ite] at hshort
  rw [minMsg] at h
  omega

theorem Ends.minMsg_le_of_decBuildPw_ok {s : State} {pw m : List Byte} {r : CmdEnd × State}
    (h : Ends s (.decBuildPw pw m) r) (hok : r.1.status = .ok) : minMsg ≤ m.length := by
  cases h with
  | decBuildPw _ _ hlen => exact hlen
  | decBuildPwSize | decBuildPwShort | decBuildPwFormat => cases hok

theorem Ends.minMsg_le_of_decBuildKeys_ok {s : State} {ek hk : Bytes 32} {m : List Byte}
    {r : CmdEnd × State} (h : Ends s (.decBuildKeys ek hk m) r) (hok : r.1.status = .ok) :
    minMsg ≤ m.length := by
  cases h with
  | decBuildKeys _ hlen => exact hlen
  | decBuildKeysSize | decBuildKeysShort | decBuildKeysFormat => cases hok

/-- The next state's `LASTERR` is the status of one of the command's ends (R210). -/
theorem ends_of_exec_eq_next {i : Instr} {s t : State} (h : exec i s = .next t)
    (hi : i ≠ .getStatus) : ∃ r, Ends s i r ∧ r.1.status = t.lasterr := by
  cases (exec_eq_nextOf i s).symm.trans h
  exact ⟨_, runOf_ends i s, (nextOf_lasterr hi _).symm⟩

/-- Settles O45: a build succeeds only on 66 bytes or more, and those hold header and tag. -/
theorem noTagErrorExactlyWhenDue : Obligations.NoTagErrorExactlyWhenDue := by
  refine ⟨fun i s hi => exec_lasterr_eq_noTag_iff hi s, fun pw m s t hbuild hok => ?_,
    fun ek hk m s t hbuild hok => ?_⟩
  · obtain ⟨r, hends, hstatus⟩ := ends_of_exec_eq_next hbuild nofun
    exact exec_decrypt_lasterr_ne_noTag (hends.minMsg_le_of_decBuildPw_ok (hstatus.trans hok)) t
  · obtain ⟨r, hends, hstatus⟩ := ends_of_exec_eq_next hbuild nofun
    exact exec_decrypt_lasterr_ne_noTag (hends.minMsg_le_of_decBuildKeys_ok (hstatus.trans hok)) t

/-! ## The other errors -/

/-- Settles O46: the error is due at the first failing draw, which is where the command ends. -/
theorem rngErrorExactlyWhenDue : Obligations.RngErrorExactlyWhenDue := by
  intro i s hi
  have hiff := nextOf_lasterr_eq_iff_errorDue hi s (e := .rng) (by decide)
  refine ⟨_, exec_eq_nextOf i s, hiff, fun hlast => ?_, fun hother => ?_⟩
  · obtain ⟨k, hk, hfail, hfirst, hends⟩ := ends_of_dueRng (hiff.mp hlast)
    refine ⟨?_, nextOf_runOf_rsp_of_error hi (by decide) hlast, k, hk, hfail, hfirst, ?_⟩
    · rw [hends.runOf_eq]
      exact .of_sameCtx (nextOf_sameCtx i _) ⟨rfl, rfl, rfl, rfl, rfl, rfl, rfl⟩
    · rw [hends.runOf_eq]
      exact (nextOf_drew (s := s) i ⟨rfl, rfl⟩).draws
  · obtain ⟨hrng, hdraws⟩ := nextOf_drew i ((runOf_ends i s).drew_zero hother)
    exact ⟨hrng, hdraws⟩

/-- Settles O47: the verdict decides between the two, and is what `EQ` holds. -/
theorem tagAndPaddingErrorsExactlyWhenDue : Obligations.TagAndPaddingErrorsExactlyWhenDue := by
  intro i s hi
  have hhmac := nextOf_lasterr_eq_iff_errorDue hi s (e := .hmac) (by decide)
  have hunpad := nextOf_lasterr_eq_iff_errorDue hi s (e := .unpad) (by decide)
  refine ⟨_, exec_eq_nextOf i s, hhmac, hunpad,
    fun hlast => ⟨?_, nextOf_runOf_rsp_of_error hi (by decide) hlast⟩,
    fun hlast => ⟨?_, nextOf_runOf_rsp_of_error hi (by decide) hlast⟩⟩
  · obtain ⟨hk, signed, ek, v, ct, tag, hreach, -⟩ := hhmac.mp hlast
    rw [nextOf_runOf_eq, hlast, (eqAfter_of_reachesTag hreach).1]
  · obtain ⟨hk, signed, ek, v, ct, tag, hreach, -⟩ := hunpad.mp hlast
    rw [nextOf_runOf_eq, hlast, (eqAfter_of_reachesTag hreach).2]

/-! ## Over all errors -/

/-- Settles O48: a command raises only what can be due, and a packet that is no command
has code 10. -/
theorem tagGenAndReservedCodesNeverProduced : Obligations.TagGenAndReservedCodesNeverProduced := by
  intro s p rest hin
  cases hd : decode p with
  | ok i =>
    have hends := runOf_ends i { s with inputs := rest }
    have hne := runOf_status_ne_tagGen i { s with inputs := rest }
    refine ⟨_, _, _, (step_packet_ok hin hd).trans (exec_eq_nextOf i _), hends.nextOf_rsp,
      Status.code_byte_ne_one hne, ?_, Status.code_le _, fun hp => ?_⟩
    · rw [Status.code_byte_toNat]
      exact Status.code_le _
    · have hi : i ≠ .getStatus := fun h => hp (congrArg Except.ok h)
      rw [nextOf_lasterr hi, Status.code_byte_toNat]
      exact ⟨hne, rfl⟩
  | error why =>
    exact ⟨_, 0x0a, [0x00, 0x00, 0x00, 0x00], step_packet_error hin hd, rfl, by decide, by decide,
      Status.code_le _, fun _ => ⟨nofun, rfl⟩⟩

/-- A build or one-shot that ends with an error leaves no context (R211, R267). -/
theorem nextOf_runOf_ctxEmpty_of_error {i : Instr} {s : State} (hw : writesCtx i = true)
    (he : (nextOf i (runOf i s)).lasterr ≠ .ok) : (nextOf i (runOf i s)).CtxEmpty := by
  have hi : i ≠ .getStatus := by
    rintro rfl
    cases hw
  rw [nextOf_lasterr hi] at he
  exact ((runOf_ends i s).ctxEmpty_of_status_ne_ok hw he).of_sameCtx (nextOf_sameCtx i _)

/-- A command takes no packet that waits behind it (R58). -/
theorem nextOf_runOf_inputs (i : Instr) (s : State) : (nextOf i (runOf i s)).inputs = s.inputs := by
  rw [← (runOf_ends i s).sameFrame.inputs]
  unfold nextOf
  split <;> simp

/-- `EQ` after an error of DECRYPT, as R267 lists it. -/
theorem eqAfter_decrypt_of_error {e : Status} (he : e ≠ .ok) (s : State) (m : List Byte) :
    eqAfter s e (.decrypt m) =
      if e = .hmac then false else if e = .unpad then true else s.eq := by
  cases e with
  | ok => exact absurd rfl he
  | tagGen | hmac | noTag | inputSize | shortInput | rng | unpad | format | sequence
  | illegalCmd => rfl

/-- DECRYPT_MSG writes `EQ` as its DECRYPT does (R221). -/
theorem eqAfter_decryptMsg (s : State) (e : Status) (pw m : List Byte) :
    eqAfter s e (.decryptMsg pw m) = eqAfter s e (.decrypt m) := rfl

/-- Settles O49: the context by whether the command begins with `ZeroCtx()`, `EQ` by `eqAfter`. -/
theorem stateAfterAnError : Obligations.StateAfterAnError := by
  refine ⟨fun i s hi => ⟨_, exec_eq_nextOf i s, fun he =>
      ⟨nextOf_runOf_rsp_of_error hi he rfl, nextOf_runOf_inputs i s, ?_⟩⟩,
    fun s p rest why hin hd => ⟨_, step_packet_error hin hd, rfl, rfl, rfl, ?_, rfl⟩⟩
  · have heq := nextOf_runOf_eq i s
    cases i with
    | getStatus => exact absurd rfl hi
    | clear => exact absurd rfl he
    | encBuildPw | encBuildKeys | encryptMsg | decBuildPw | decBuildKeys =>
      exact ⟨nextOf_runOf_ctxEmpty_of_error rfl he, heq⟩
    | decryptMsg =>
      exact ⟨nextOf_runOf_ctxEmpty_of_error rfl he,
        heq.trans ((eqAfter_decryptMsg _ _ _ _).trans (eqAfter_decrypt_of_error he s _))⟩
    | decrypt => exact ⟨nextOf_runOf_sameCtx rfl s, heq.trans (eqAfter_decrypt_of_error he s _)⟩
    | cteq => exact ⟨nextOf_runOf_sameCtx rfl s, heq.trans (if_neg he)⟩
    | getHdr | encrypt | kdf | tag => exact ⟨nextOf_runOf_sameCtx rfl s, heq⟩
  · exact ⟨rfl, rfl, rfl, rfl, rfl, rfl, rfl⟩

end Sys2Proof.Machine
end

section
/-! The obligations on reset and the hazards (70_reset_and_hazards.md): the reset event, and what two
messages made with one `IV` share. -/

namespace Sys2Proof

/-! ## Chaining reads front to back -/

/-- The first blocks of a ciphertext depend on the first blocks of the plaintext alone (R141). -/
theorem cbcEncBlocks_take (key : Bytes 32) (prev : Bytes 16) (ps : List (Bytes 16)) (k : Nat) :
    (cbcEncBlocks key prev ps).take k = cbcEncBlocks key prev (ps.take k) := by
  induction ps generalizing prev k with
  | nil => rw [List.take_nil, cbcEncBlocks, List.take_nil]
  | cons p ps ih =>
    cases k with
    | zero => rfl
    | succ k => rw [cbcEncBlocks, List.take_succ_cons, List.take_succ_cons, ih, cbcEncBlocks]

theorem joinBlocks_cons (b : Bytes 16) (bs : List (Bytes 16)) :
    joinBlocks (b :: bs) = b.val ++ joinBlocks bs := rfl

theorem joinBlocks_take (bs : List (Bytes 16)) (k : Nat) :
    (joinBlocks bs).take (16 * k) = joinBlocks (bs.take k) := by
  induction bs generalizing k with
  | nil => rw [List.take_nil, joinBlocks, List.flatMap_nil, List.take_nil]
  | cons b bs ih =>
    cases k with
    | zero => rfl
    | succ k =>
      have hlen : 16 * (k + 1) = b.val.length + 16 * k := by
        rw [b.length_val]
        omega
      rw [List.take_succ_cons, joinBlocks_cons, joinBlocks_cons, hlen, List.take_length_add_append, ih]

/-- Whole blocks cut off the front of a plaintext are those cut off its ciphertext (R141). -/
theorem cbcEnc_take (key : Bytes 32) (iv : Bytes 16) {p : List Byte} (h : p.length % 16 = 0)
    (k : Nat) : (cbcEnc key iv p).take (16 * k) = cbcEnc key iv (p.take (16 * k)) := by
  have hblocks : blocks16 (p.take (16 * k)) = (blocks16 p).take k := by
    rw [← blocks16_joinBlocks ((blocks16 p).take k), ← joinBlocks_take, joinBlocks_blocks16 h]
  rw [cbcEnc, cbcEnc, joinBlocks_take, cbcEncBlocks_take, hblocks]

/-- Padding changes no whole block of the plaintext (R143, R145). -/
theorem encryptBody_take (key : Bytes 32) (iv : Bytes 16) {pt : List Byte} {k : Nat}
    (h : 16 * k ≤ pt.length) :
    (encryptBody key iv pt).take (16 * k) = cbcEnc key iv (pt.take (16 * k)) := by
  rw [encryptBody_eq, cbcEnc_take key iv (pad_length_mod pt), pad, List.take_append_of_le_length h]

end Sys2Proof

namespace Sys2Proof.Machine

/-- What a message shows of its plaintext's first blocks is their ciphertext under the context's key
and `IV`, behind the context's header (R80, R216). -/
theorem State.message_take (s : State) {pt : List Byte} {k : Nat} (h : 16 * k ≤ pt.length) :
    (s.message pt).take (hdrLen s.mode + 16 * k) =
      s.hdr ++ cbcEnc s.ekey s.iv (pt.take (16 * k)) := by
  have hroom : 16 * k ≤ (encryptBody s.ekey s.iv pt).length := by
    rw [encryptBody_length]
    omega
  rw [s.message_eq_frame, frame, List.append_assoc, ← s.hdr_length, List.take_length_add_append,
    List.take_append_of_le_length hroom, encryptBody_take s.ekey s.iv h]

/-- Settles O59: the header and the shared blocks fix that much of a message (`State.message_take`). -/
theorem ivReuseRepeatsCiphertextBlocks : Obligations.IvReuseRepeatsCiphertextBlocks := by
  intro p q k s hctx hp hq hkp hkq hshared
  refine ⟨s.message p, s.message q, exec_encrypt_of_enc hp hctx, exec_encrypt_of_enc hq hctx, ?_⟩
  rw [s.message_take hkp, s.message_take hkq, hshared]

/-! ## Reset -/

/-- Settles O8: the reset event writes the registers alone, and the abandoned draws are all that an
abandoned command leaves. -/
theorem resetEventResetsEveryRegister : Obligations.ResetEventResetsEveryRegister := by
  intro s rest
  refine ⟨step_reset, fun p k hin => ?_⟩
  rw [step_resetDuring hin, State.abandon, State.drawnTimes_eq, State.resetEngine]

end Sys2Proof.Machine
end
